-- ==== Sys2Proof/Word.lean ====
section
/-! DEFINITION. The widths of MHCODEC: bytes of the buffers, the 16-bit length registers, the 32-bit bus word, the
64-bit varint value (00_scope.md R4, R8; 10_state.md R30 to R37). -/

namespace Sys2Proof

/-- One byte of a buffer or of a bus access (00_scope.md R8). -/
abbrev Byte := BitVec 8

/-- IN_PTR, IN_LEN, OUT_LEN and BUF_CAP (10_state.md R32 to R35). -/
abbrev Half := BitVec 16

/-- A word of the host bus (20_memory.md R50) and a command word (30_encoding.md R70). -/
abbrev Word := BitVec 32

/-- The varint value and the registry codes: "unsigned 64-bit domain" (00_scope.md R4). -/
abbrev DWord := BitVec 64

end Sys2Proof
end

