-- ==== Sys2Proof/Syntax.lean ====
section
/-! DEFINITION. The nine commands of MHCODEC (30_encoding.md R72, spec/opcode_table.json). No command has an
immediate or a register field (30_encoding.md R71), so no constructor has an argument. -/

namespace Sys2Proof

/-- The commands, in the order of the opcode map (30_encoding.md R72). -/
inductive Instr where
  /-- Decode a varint, report the byte count, leave the cursor (41_varint.md R125). -/
  | vdecraw
  /-- Decode a varint and advance the cursor past it (41_varint.md R126). -/
  | vdec
  /-- Encode VALUE as a varint and append it to the output (41_varint.md R128). -/
  | venc
  /-- Convert the hex text of the input window to bytes (42_hex.md R152). -/
  | hexdec
  /-- Convert the bytes of the input window to hex text (42_hex.md R154). -/
  | hexenc
  /-- Look up the identifier of a code (43_registry.md R176). -/
  | lkcode
  /-- Look up the identifier of a name (43_registry.md R177). -/
  | lkname
  /-- Test whether a code is registered (43_registry.md R178). -/
  | valid
  /-- Move the output bytes to the input buffer (44_buffer.md R200). -/
  | out2in
deriving DecidableEq, Repr

end Sys2Proof
end

