-- ==== Sys2Proof/Decode.lean ====
section
/-! DEFINITION. The command word (30_encoding.md R70 to R74): the decoder, total on every word and on any bytes, and
the encoder. -/

namespace Sys2Proof

/-- Why bits are no command. `reservedBits` and `unassigned` are the two ways of a word to be illegal
(30_encoding.md R73); `truncated` says that fewer than the 4 bytes of a command word were given (R70). -/
inductive DecodeError where
  | reservedBits (rsv : BitVec 24)
  | unassigned (op : Byte)
  | truncated
deriving DecidableEq, Repr

/-- OP, bits 7:0 of a command word (30_encoding.md R70). -/
def opField (w : Word) : Byte := w.extractLsb' 0 8

/-- RSV, bits 31:8 of a command word, which must be 0 (30_encoding.md R70). -/
def rsvField (w : Word) : BitVec 24 := w.extractLsb' 8 24

/-- The opcode map (30_encoding.md R72). -/
def commandOf (op : Byte) : Option Instr :=
  match op.toNat with
  | 1 => some .vdecraw
  | 2 => some .vdec
  | 3 => some .venc
  | 4 => some .hexdec
  | 5 => some .hexenc
  | 6 => some .lkcode
  | 7 => some .lkname
  | 8 => some .valid
  | 9 => some .out2in
  | _ => none

/-- "A decoder of command words is total" (30_encoding.md R74): the command if RSV = 0 and OP is one of 0x01 to 0x09,
else illegal, by name. -/
def decode (w : Word) : Except DecodeError Instr :=
  if rsvField w ≠ 0 then .error (.reservedBits (rsvField w))
  else match commandOf (opField w) with
    | some i => .ok i
    | none => .error (.unassigned (opField w))

/-- The first 4 bytes of a byte sequence as one word, the first the least significant (20_memory.md R51), decoded, with
the bytes left over. -/
def decodeBytes : List Byte → Except DecodeError (Instr × List Byte)
  | b0 :: b1 :: b2 :: b3 :: rest =>
    match decode (b3 ++ b2 ++ b1 ++ b0) with
    | .ok i => .ok (i, rest)
    | .error e => .error e
  | _ => .error .truncated

/-- OP of each command (30_encoding.md R72). -/
def opcode : Instr → Byte
  | .vdecraw => 0x01
  | .vdec => 0x02
  | .venc => 0x03
  | .hexdec => 0x04
  | .hexenc => 0x05
  | .lkcode => 0x06
  | .lkname => 0x07
  | .valid => 0x08
  | .out2in => 0x09

/-- The command word of a command: its OP with RSV = 0 (30_encoding.md R70, R85 "`cmd MNEMONIC`"). -/
def encode (i : Instr) : Word := (0 : BitVec 24) ++ opcode i

/-- The `n` low bytes of a number, the least significant first (20_memory.md R51). -/
def bytesOfNat : Nat → Nat → List Byte
  | 0, _ => []
  | n + 1, w => BitVec.ofNat 8 w :: bytesOfNat n (w / 256)

/-- What the decoder reads from an instruction whose bits are `w`, bit 0 the least significant: the command word is 4
bytes, so bits above `nbits` are 0 and 4 bytes are laid out. -/
def decodeTableWord (nbits w : Nat) : Option Instr :=
  match decodeBytes (bytesOfNat 4 (w % 2 ^ nbits)) with
  | .ok (i, _) => some i
  | .error _ => none

end Sys2Proof
end

