-- ==== Sys2Proof/Machine/HostLang.lean ====
section
/-! DEFINITION. What a host is made of: the registers and buffers it names, the accesses it makes on the bus
(20_memory.md section 1), the lines its programs are written in (30_encoding.md R85), and the pseudo-operations with
their expansions (R86). The host's own agent, which runs the lines, is Sys2Proof/Machine/HostAgent.lean. -/

namespace Sys2Proof.Machine

/-- The two byte buffers (10_state.md R35). -/
inductive Buffer where
  | ibuf
  | obuf
deriving DecidableEq, Repr

/-- The registers of the register map (10_state.md section 2). -/
inductive Reg where
  | ident | cap | cmd | status | valueLo | valueHi | count | inPtr | inLen | outLen | funcId | funcCodeLo | funcCodeHi
deriving DecidableEq, Repr

/-- The size of a host access: 1, 2 or 4 bytes (20_memory.md R50). -/
inductive Size where
  | one
  | two
  | four
deriving DecidableEq, Repr

/-- One access of the host at a bus address (BASE is subtracted by the block, 20_memory.md R55). -/
inductive Access where
  | read (addr : Nat) (n : Size)
  | write (addr : Nat) (n : Size) (v : Word)
deriving DecidableEq, Repr

/-- What the host receives: the bytes read, zero-extended to a bus word (20_memory.md R51; log 7); the acknowledgement of a
write, ignored or not; or an error response, "for a read, no data" (R54). -/
inductive Response where
  | data (v : Word)
  | done
  | busError
deriving DecidableEq, Repr

/-- The name of a host variable or of a label. -/
abbrev Ident := List Char

/-- What a host variable holds: a number, as `rd` reads one, or a byte sequence, as `rdb` does (30_encoding.md R85). -/
inductive HostVal where
  | num (n : Int)
  | bytes (bs : List Byte)
deriving DecidableEq, Repr

/-- Host arithmetic (30_encoding.md R85 "`x := expr`") on values the host has read: unbounded integers (00_scope.md R9)
and byte sequences, with R10's `len(bs)`, `bs[i]`, `bs[i..j)` and `++`. `bits e hi lo` is the field `e[hi:lo]` (R8).
DESIGN CHOICE (log 4): the grammar. -/
inductive Expr where
  | num (n : Int)
  | bytes (bs : List Byte)
  | var (x : Ident)
  | add (a b : Expr)
  | sub (a b : Expr)
  | mul (a b : Expr)
  | bits (a : Expr) (hi lo : Nat)
  | len (a : Expr)
  | byte (a i : Expr)
  | slice (a i j : Expr)
  | cat (a b : Expr)
deriving DecidableEq, Repr

/-- The conditions of "`if cond goto L`" (30_encoding.md R85): comparisons of values, and whether a bus error was the
response to the last access (`busError`) or to some access of the last line that made one (`lineError`), by which "the
host's program decides what follows" (20_memory.md R54). DESIGN CHOICE (log 4): the grammar. -/
inductive Cond where
  | eq (a b : Expr)
  | ne (a b : Expr)
  | lt (a b : Expr)
  | le (a b : Expr)
  | busError
  | lineError
deriving DecidableEq, Repr

/-- One line of a host program (30_encoding.md R85); `memRead` and `memWrite` are the primitives of 00_scope.md R10, an
access of any size at any block offset. The listed bytes of `wrb` are an expression, so that a program can write bytes
it has read (log 4). -/
inductive HostLine where
  | wr (r : Reg) (v : Expr)
  | rd (r : Reg) (x : Ident)
  | wrb (b : Buffer) (i bytes : Expr)
  | wrs (b : Buffer) (i : Expr) (text : List Char)
  | rdb (b : Buffer) (i j : Expr) (x : Ident)
  | cmd (c : Instr)
  | wait
  | ifGoto (c : Cond) (l : Ident)
  | goto (l : Ident)
  | label (l : Ident)
  | assign (x : Ident) (e : Expr)
  | memRead (off : Expr) (n : Size) (x : Ident)
  | memWrite (off : Expr) (n : Size) (v : Expr)
deriving DecidableEq, Repr

/-- The pseudo-operations (30_encoding.md R86), and the lines of R85 among which they stand. -/
inductive Pseudo where
  | line (l : HostLine)
  | run (c : Instr)
  | wr64Value (v : Expr)
  | rd64Value (x : Ident)
  | rd64FuncCode (x : Ident)
  | load (bytes : Expr)
  | loads (text : List Char)
  | clrout
  | err (x : Ident)
deriving DecidableEq, Repr

/-- One bus access still to be made of the line the host is running: a write, a read into a variable, a read of one byte
appended to a variable, or the repeated read of STATUS of "`wait`" (30_encoding.md R85). -/
inductive BusOp where
  | write (addr : Nat) (n : Size) (v : Word)
  | read (addr : Nat) (n : Size) (x : Ident)
  | readByte (addr : Nat) (x : Ident)
  | poll (addr : Nat)
deriving DecidableEq, Repr

/-- Which agent moves (00_scope.md R7, 40_command_cycle.md R101), or an edge of the reset input (70 R240). -/
inductive Turn where
  | host
  | block
  | assertReset
  | releaseReset
deriving DecidableEq, Repr

/-- The variable that holds what a `wait` or an `err` reads of STATUS (30_encoding.md R85, R86). -/
def varS : Ident := ['s']

/-- Both halves of a 64-bit register, read one after the other and put together (30_encoding.md R86 "`rd64`"). -/
def read64 (lo hi : Reg) (x : Ident) : List HostLine :=
  [.rd lo ['l', 'o'], .rd hi ['h', 'i'],
   .assign x (.add (.mul (.var ['h', 'i']) (.num (2 ^ 32))) (.var ['l', 'o']))]

/-- The pointer writes that end `load` and `loads` (30_encoding.md R86). -/
def setWindow (n : Expr) : List HostLine := [.wr .inPtr (.num 0), .wr .inLen n]

/-- The expansion of a pseudo-operation (30_encoding.md R86). -/
def Pseudo.expand : Pseudo → List HostLine
  | .line l => [l]
  | .run c => [.cmd c, .wait]
  | .wr64Value v => [.wr .valueLo (.bits v 31 0), .wr .valueHi (.bits v 63 32)]
  | .rd64Value x => read64 .valueLo .valueHi x
  | .rd64FuncCode x => read64 .funcCodeLo .funcCodeHi x
  | .load bytes => .wrb .ibuf (.num 0) bytes :: setWindow (.len bytes)
  | .loads text => .wrs .ibuf (.num 0) text :: setWindow (.num text.length)
  | .clrout => [.wr .outLen (.num 0)]
  | .err x => [.rd .status varS, .assign x (.bits (.var varS) 11 8)]

/-- A program with its pseudo-operations expanded. -/
def assemble (p : List Pseudo) : List HostLine := p.flatMap Pseudo.expand

end Sys2Proof.Machine
end

