-- ==== Sys2Proof/Config.lean ====
section
/-! DEFINITION. What an implementation fixes (the OPEN parameters of 00_scope.md R6) and the free values of the
model. The registry's identifiers stand here because NAME_TABLE names them. -/

namespace Sys2Proof

/-- The Hash Function Identifiers: "an enumerated, closed set of symbolic variants", in the order of the code table
(43_registry.md R170). SHA3 is another name of `sha3x512` (R172). An `x` stands for the source's hyphen. -/
inductive HashId where
  | ident | sha1 | sha2x256 | sha2x512 | sha3x512 | sha3x384 | sha3x256 | sha3x224 | shake128 | shake256
  | keccak224 | keccak256 | keccak384 | keccak512 | murmur3 | dblSha2x256 | x11
  | blake2bMin | blake2bMax | blake2sMin | blake2sMax
deriving DecidableEq, Repr

/-- The parameters a chip fixes and no step changes (00_scope.md R6). They are carried in State (log 1), so a statement
about every state is a statement about every configuration.
`bufCap` is BUF_CAP, an integer of 1 to 65535 (10_state.md R35), which CAP shows in bits [15:0] (R22).
`nameTable` is NAME_TABLE, a list of pairs of a name and an identifier (43_registry.md R174).
`base` is BASE, the host-bus base address (20_memory.md R55). -/
structure Config where
  bufCap    : Half
  nameTable : List (List Byte × HashId)
  base      : Nat
deriving DecidableEq, Repr

/-- FREE VALUE (log 6). The `n`-th byte drawn: what a host read of a buffer byte without a value returns
(20_memory.md R53) and each byte of what a host read of anything but STATUS returns while BUSY = 1
(70_reset_and_hazards.md R252). State.draws counts the bytes drawn, so no two draws are the same argument. -/
opaque Config.freeByte : Nat → Byte

/-- FREE VALUE (log 2). The `n`-th delay drawn: how many host steps come between the command that is pending and its
completion, "any number" of them (70_reset_and_hazards.md R250), each a finite one, so that the completion comes
(40_command_cycle.md R101). State.delays counts the delays drawn, so no two commands share an argument. -/
opaque Config.delay : Nat → Nat

/-- FREE VALUE (log 4). The number a host expression sees in a host variable that nothing has set (30_encoding.md R85
says only "values the host has read"). -/
opaque Config.unsetVar : List Char → Int

/-- FREE VALUE (log 4). The byte a host expression sees at an index outside a byte sequence (00_scope.md R10
says only "element"). -/
opaque Config.noByte : List Byte → Int → Byte

end Sys2Proof
end

