-- ==== Sys2Proof/Machine/Registry.lean ====
section
/-! DEFINITION. The hash registry's contents and its three functions (43_registry.md section 1): a ROM, fixed before
reset ends, not addressable on the bus (10_state.md R39). -/

namespace Sys2Proof

/-- The 21 identifiers in the order of the code table (43_registry.md R170). -/
def HashId.all : List HashId :=
  [.ident, .sha1, .sha2x256, .sha2x512, .sha3x512, .sha3x384, .sha3x256, .sha3x224, .shake128, .shake256,
   .keccak224, .keccak256, .keccak384, .keccak512, .murmur3, .dblSha2x256, .x11,
   .blake2bMin, .blake2bMax, .blake2sMin, .blake2sMax]

/-- The FUNC_ID number of an identifier, its position in the code table (43_registry.md R170). -/
def HashId.funcId : HashId → BitVec 5
  | .ident => 0
  | .sha1 => 1
  | .sha2x256 => 2
  | .sha2x512 => 3
  | .sha3x512 => 4
  | .sha3x384 => 5
  | .sha3x256 => 6
  | .sha3x224 => 7
  | .shake128 => 8
  | .shake256 => 9
  | .keccak224 => 10
  | .keccak256 => 11
  | .keccak384 => 12
  | .keccak512 => 13
  | .murmur3 => 14
  | .dblSha2x256 => 15
  | .x11 => 16
  | .blake2bMin => 17
  | .blake2bMax => 18
  | .blake2sMin => 19
  | .blake2sMax => 20

/-- The registry code of an identifier (43_registry.md R170; the BLAKE2 entries are four single codes, R173). -/
def HashId.code : HashId → DWord
  | .ident => 0x00
  | .sha1 => 0x11
  | .sha2x256 => 0x12
  | .sha2x512 => 0x13
  | .sha3x512 => 0x14
  | .sha3x384 => 0x15
  | .sha3x256 => 0x16
  | .sha3x224 => 0x17
  | .shake128 => 0x18
  | .shake256 => 0x19
  | .keccak224 => 0x1A
  | .keccak256 => 0x1B
  | .keccak384 => 0x1C
  | .keccak512 => 0x1D
  | .murmur3 => 0x22
  | .dblSha2x256 => 0x56
  | .x11 => 0x1100
  | .blake2bMin => 0xB201
  | .blake2bMax => 0xB240
  | .blake2sMin => 0xB241
  | .blake2sMax => 0xB260

/-- FUNC_ID when a lookup found nothing (43_registry.md R170). -/
def noFuncId : BitVec 5 := 31

/-- `lookupByCode`: the row whose code equals `c` as a whole 64-bit value (43_registry.md R171). -/
def lookupByCode (c : DWord) : Option HashId := HashId.all.find? (fun h => h.code == c)

/-- `lookupByName`: the pair whose name equals the key byte for byte, exact and case-sensitive (43_registry.md R175). -/
def lookupByName : List (List Byte × HashId) → List Byte → Option HashId
  | [], _ => none
  | (name, h) :: rest, k => if name = k then some h else lookupByName rest k

/-- `isValid` (43_registry.md R179). -/
def isValid (c : DWord) : Bool := (lookupByCode c).isSome

/-- The ASCII bytes of a text (30_encoding.md R81, R85; the codes are the standard ASCII ones). DESIGN CHOICE (log 17): a
character outside ASCII is one byte, its code point modulo 256; a well-formed program has none (programWf). -/
def ascii (text : List Char) : List Byte := text.map (fun c => BitVec.ofNat 8 c.toNat)

/-- The default NAME_TABLE (43_registry.md R174): the lowercase of each identifier the source spells, the BLAKE2 entries
left out, and "sha3". -/
def defaultNames : List (List Byte × HashId) :=
  [(ascii ['i', 'd'], .ident),
   (ascii ['s', 'h', 'a', '1'], .sha1),
   (ascii ['s', 'h', 'a', '2', '-', '2', '5', '6'], .sha2x256),
   (ascii ['s', 'h', 'a', '2', '-', '5', '1', '2'], .sha2x512),
   (ascii ['s', 'h', 'a', '3', '-', '5', '1', '2'], .sha3x512),
   (ascii ['s', 'h', 'a', '3'], .sha3x512),
   (ascii ['s', 'h', 'a', '3', '-', '3', '8', '4'], .sha3x384),
   (ascii ['s', 'h', 'a', '3', '-', '2', '5', '6'], .sha3x256),
   (ascii ['s', 'h', 'a', '3', '-', '2', '2', '4'], .sha3x224),
   (ascii ['s', 'h', 'a', 'k', 'e', '-', '1', '2', '8'], .shake128),
   (ascii ['s', 'h', 'a', 'k', 'e', '-', '2', '5', '6'], .shake256),
   (ascii ['k', 'e', 'c', 'c', 'a', 'k', '-', '2', '2', '4'], .keccak224),
   (ascii ['k', 'e', 'c', 'c', 'a', 'k', '-', '2', '5', '6'], .keccak256),
   (ascii ['k', 'e', 'c', 'c', 'a', 'k', '-', '3', '8', '4'], .keccak384),
   (ascii ['k', 'e', 'c', 'c', 'a', 'k', '-', '5', '1', '2'], .keccak512),
   (ascii ['m', 'u', 'r', 'm', 'u', 'r', '3'], .murmur3),
   (ascii ['d', 'b', 'l', '-', 's', 'h', 'a', '2', '-', '2', '5', '6'], .dblSha2x256),
   (ascii ['x', '1', '1'], .x11)]

/-- The default parameters (00_scope.md R6): BUF_CAP = 1024, the default names. DESIGN CHOICE (log 1): BASE = 0, for
which the spec gives no default. -/
def Config.default : Config := ⟨1024, defaultNames, 0⟩

end Sys2Proof
end

