-- ==== Sys2Proof/Machine/State.lean ====
section
/-! DEFINITION. All the state the spec gives the block (10_state.md), the host's own state, and the model's three own
fields, as plain data; the fault, the refusal; the state after reset (10_state.md R42). -/

namespace Sys2Proof.Machine

/-- A buffer's contents (10_state.md R35): pairs of an index and a byte, the indexes strictly rising (Memory.wf); an
index that is not listed holds no value, "never written since reset". -/
abbrev Memory := List Host.Cell

/-- The result code of a command, STATUS.ERR (60_exceptions.md R210). The codes 7 to 15 are never produced. -/
inductive ErrCode where
  | ok
  | bufferTooShort
  | varintTooLong
  | invalidInput
  | outputOverflow
  | badPointers
  | illegalCommand
deriving DecidableEq, Repr

/-- The one model fault (60_exceptions.md R214). -/
inductive Fault where
  /-- UninitRead(buffer, index): raised by VDECRAW, VDEC, HEXDEC, HEXENC, LKNAME and OUT2IN when they read a buffer byte
  that holds no value (40_command_cycle.md R108). Safe: the chip reads some byte, and the model proves nothing of it. -/
  | uninitRead (b : Buffer) (index : Nat)
deriving DecidableEq, Repr

/-- "The model has no refusal" (60_exceptions.md R214). -/
inductive Refusal where
  /-- Raised by nothing: exec gives every command its meaning. It would be safe: the machine stops. -/
  | notModelled (mnemonic : String)
deriving DecidableEq, Repr

/-- The host's own state (10_state.md R20: "the host's position in that sequence is the host's own state"): its program
and position, the bus accesses left of the line it is running, its variables, and the response
to its last access, and whether some access of the last line that made one was a bus error (20_memory.md R54). -/
structure HostAgent where
  program : List HostLine
  pos     : Nat
  queue   : List BusOp
  vars    : List (Ident × HostVal)
  resp    : Option Response
  failed  : Bool
deriving DecidableEq, Repr

/-- The machine. From `cmdLatch` to `obuf` it is the block's state (10_state.md R23 to R38); `inReset` is the reset
input (70_reset_and_hazards.md R240); `config` is what the chip fixes (00_scope.md R6); `host` is the host's own state.
`turns`, `delays` and `draws` are the model's own: who moves at each of the next steps and how many free delays have been
drawn (log 2), and how many free bytes have been drawn (log 6). -/
structure State where
  cmdLatch : Word
  busy     : Bool
  done     : Bool
  found    : Bool
  ovr      : Bool
  err      : ErrCode
  value    : DWord
  count    : Word
  inPtr    : Half
  inLen    : Half
  outLen   : Half
  funcId   : BitVec 5
  funcCode : DWord
  ibuf     : Memory
  obuf     : Memory
  inReset  : Bool
  config   : Config
  host     : HostAgent
  turns    : List Turn
  delays   : Nat
  draws    : Nat
deriving DecidableEq, Repr

/-- What one step, or one command's meaning, answers. -/
abbrev Result := Host.Outcome State Fault Refusal

/-- A host with no program. DESIGN CHOICE (log 3): a program is loaded from outside the machine. -/
def HostAgent.idle : HostAgent := ⟨[], 0, [], [], none, false⟩

/-- The machine right after reset on a chip with the parameters `c` (10_state.md R42). -/
def State.resetWith (c : Config) : State where
  cmdLatch := 0
  busy     := false
  done     := false
  found    := false
  ovr      := false
  err      := .ok
  value    := 0
  count    := 0
  inPtr    := 0
  inLen    := 0
  outLen   := 0
  funcId   := noFuncId
  funcCode := 0
  ibuf     := []
  obuf     := []
  inReset  := false
  config   := c
  host     := HostAgent.idle
  turns    := []
  delays   := 0
  draws    := 0

/-- The machine right after reset with the default parameters (10_state.md R42, 00_scope.md R6). -/
def State.reset : State := State.resetWith Config.default

end Sys2Proof.Machine
end

