-- ==== Sys2Proof/Machine/Ops.lean ====
section
/-! DEFINITION. The named operations over the buffers and the registers that every command shares: one byte and runs
of bytes of a buffer, the pointer check, `fail` (this hardware's only way to report an error: it has no trap,
60_exceptions.md R211), Append, and the two ends of the command cycle. -/

namespace Sys2Proof.Machine

/-- The byte a buffer holds at index `i`, if any (10_state.md R35). -/
def Memory.read : Memory → Nat → Option Byte
  | [], _ => none
  | (a, b) :: m, i => if a = i then some b else Memory.read m i

/-- A buffer with byte `b` written at index `i`, its indexes still rising. -/
def Memory.write : Memory → Nat → Byte → Memory
  | [], i, b => [(i, b)]
  | (a, c) :: m, i, b =>
    if i < a then (i, b) :: (a, c) :: m
    else if i = a then (i, b) :: m
    else (a, c) :: Memory.write m i b

/-- A buffer with the bytes `bs` written from index `i` on. -/
def Memory.writeBytes (m : Memory) (i : Nat) : List Byte → Memory
  | [] => m
  | b :: bs => Memory.writeBytes (m.write i b) (i + 1) bs

/-- The `n` optional bytes of a buffer from index `i` on. -/
def Memory.span (m : Memory) (i n : Nat) : List (Option Byte) := (List.range n).map (fun k => m.read (i + k))

/-- The canonical form of a buffer: its indexes strictly rise. -/
abbrev Memory.wf (m : Memory) : Prop := m.Pairwise (fun p q => p.1 < q.1)

/-- A buffer of `n` bytes lists no index outside `0 .. n-1` (10_state.md R35). -/
abbrev Memory.within (m : Memory) (n : Nat) : Prop := ∀ p ∈ m, p.1 < n

/-- One of the two buffers. -/
def State.buffer (s : State) : Buffer → Memory
  | .ibuf => s.ibuf
  | .obuf => s.obuf

/-- A state with one of the two buffers replaced. -/
def State.setBuffer (s : State) (b : Buffer) (m : Memory) : State :=
  match b with
  | .ibuf => { s with ibuf := m }
  | .obuf => { s with obuf := m }

/-- BUF_CAP as a number (10_state.md R35). -/
def State.cap (s : State) : Nat := s.config.bufCap.toNat

/-- How the rule of a command ends before its end: at the `i`-th byte of what it reads, which holds no value
(40_command_cycle.md R108), or by `fail E` (R106). -/
inductive Stop where
  | unwritten (i : Nat)
  | failed (e : ErrCode)
deriving DecidableEq, Repr

/-- `fail E`: ERR is written and nothing else (40_command_cycle.md R106, 60_exceptions.md R211). -/
def State.fail (s : State) (e : ErrCode) : State := { s with err := e }

/-- A successful command sets ERR to OK (40_command_cycle.md R107). -/
def State.succeed (s : State) : State := { s with err := .ok }

/-- The check of the buffer registers (40_command_cycle.md R103). -/
def State.pointersOk (s : State) : Bool :=
  decide (s.inPtr.toNat ≤ s.inLen.toNat ∧ s.inLen.toNat ≤ s.cap ∧ s.outLen.toNat ≤ s.cap)

/-- "Only if it passes does the command's own rule run" (40_command_cycle.md R103). -/
def State.checked (s : State) (rule : Result) : Result :=
  if s.pointersOk then rule else .next (s.fail .badPointers)

/-- How the end of a command's rule that reads `b` from index `start` on becomes the step's outcome: a result, an error
code (40_command_cycle.md R106), or the model fault at the buffer's own index (R108). -/
def State.settle (s : State) (b : Buffer) (start : Nat) : Except Stop State → Result
  | .ok t => .next t
  | .error (.failed e) => .next (s.fail e)
  | .error (.unwritten i) => .fault (.uninitRead b (start + i))

/-- `Append(bs)` (40_command_cycle.md R105): the bytes at OUT_LEN, or OUTPUT_OVERFLOW and nothing written. -/
def State.append (s : State) (bs : List Byte) : Except Stop State :=
  if s.cap < s.outLen.toNat + bs.length then .error (.failed .outputOverflow)
  else .ok { s with obuf := s.obuf.writeBytes s.outLen.toNat bs,
                    outLen := BitVec.ofNat 16 (s.outLen.toNat + bs.length) }

/-- A next state with `f` applied; a fault or a refusal as it is. -/
def onNext (f : State → State) : Result → Result
  | .next s => .next (f s)
  | .fault r => .fault r
  | .refused r => .refused r

/-- The acceptance of command word `w` (40_command_cycle.md R100). -/
def State.accept (s : State) (w : Word) : State := { s with cmdLatch := w, busy := true, done := false }

/-- The end of a completion, after Exec (40_command_cycle.md R101). -/
def State.completed (s : State) : State := { s with busy := false, done := true }

/-- The block's state as reset leaves it (10_state.md R42, 70_reset_and_hazards.md R240); the parameters, the host and
the model's own fields are no state of the block and stay (log 10). -/
def State.resetBlock (s : State) : State :=
  { State.resetWith s.config with host := s.host, turns := s.turns, delays := s.delays, draws := s.draws }

end Sys2Proof.Machine
end

