-- ==== Sys2Proof/Machine/Operands.lean ====
section
/-! DEFINITION. The operands of the commands (30_encoding.md R71): the input window, the output bytes, and the register
writes of the commands that consume the window or count its bytes. -/

namespace Sys2Proof.Machine

/-- `In()`, the input window: IBUF[IN_PTR] to IBUF[IN_LEN-1] (40_command_cycle.md R104). A byte that holds no value is
`none`; whether a command reads it is for the command's rule to say. -/
def State.window (s : State) : List (Option Byte) := s.ibuf.span s.inPtr.toNat (s.inLen.toNat - s.inPtr.toNat)

/-- OBUF[0] to OBUF[OUT_LEN-1], the operand of OUT2IN (44_buffer.md R200). -/
def State.output (s : State) : List (Option Byte) := s.obuf.span 0 s.outLen.toNat

/-- Every byte of a byte sequence, read in increasing order up to the first that holds no value
(40_command_cycle.md R104, R108). -/
def readAllFrom (i : Nat) : List (Option Byte) → Except Stop (List Byte)
  | [] => .ok []
  | none :: _ => .error (.unwritten i)
  | some b :: rest =>
    match readAllFrom (i + 1) rest with
    | .ok bs => .ok (b :: bs)
    | .error e => .error e

/-- Every byte of a byte sequence. -/
def readAll (bs : List (Option Byte)) : Except Stop (List Byte) := readAllFrom 0 bs

/-- IN_PTR <- IN_LEN: the whole window is consumed (42_hex.md R152, R154). -/
def State.consumeInput (s : State) : State := { s with inPtr := s.inLen }

/-- IN_PTR advanced past `n` bytes (41_varint.md R126). -/
def State.advanceInput (s : State) (n : Nat) : State := { s with inPtr := BitVec.ofNat 16 (s.inPtr.toNat + n) }

/-- VALUE and COUNT of a varint decode, COUNT as a 32-bit two's-complement number (41_varint.md R125, R126). -/
def State.setDecoded (s : State) (v : DWord) (c : Int) : State := { s with value := v, count := BitVec.ofInt 32 c }

end Sys2Proof.Machine
end

