-- ==== Sys2Proof/Machine/Hex.lean ====
section
/-! DEFINITION. The hex commands HEXDEC and HEXENC, and the functions they compute (42_hex.md). -/

namespace Sys2Proof.Machine

/-- `hexval(c)`: the value of a hex digit of either case, or none (42_hex.md R150). -/
def hexval (c : Byte) : Option Nat :=
  if 0x30 ≤ c.toNat ∧ c.toNat ≤ 0x39 then some (c.toNat - 0x30)
  else if 0x61 ≤ c.toNat ∧ c.toNat ≤ 0x66 then some (c.toNat - 0x61 + 10)
  else if 0x41 ≤ c.toNat ∧ c.toNat ≤ 0x46 then some (c.toNat - 0x41 + 10)
  else none

/-- One character of hex text at index `i`: its value, INVALID_INPUT, or the stop at a byte without a value
(42_hex.md R151). -/
def hexDigitAt (i : Nat) : Option Byte → Except Stop Nat
  | none => .error (.unwritten i)
  | some c =>
    match hexval c with
    | some d => .ok d
    | none => .error (.failed .invalidInput)

/-- The loop of `HexDecode` from text index `i` on, two characters at a time, high nibble first, each looked at before
the next is read (42_hex.md R151). A single character is left only of a text of odd length. -/
def hexDecodeFrom (i : Nat) : List (Option Byte) → Except Stop (List Byte)
  | [] => .ok []
  | [_] => .error (.failed .invalidInput)
  | c :: d :: rest =>
    match hexDigitAt i c with
    | .error e => .error e
    | .ok hi =>
      match hexDigitAt (i + 1) d with
      | .error e => .error e
      | .ok lo =>
        match hexDecodeFrom (i + 2) rest with
        | .error e => .error e
        | .ok out => .ok (BitVec.ofNat 8 (hi * 16 + lo) :: out)

/-- `HexDecode(t)`: the length is checked before any character is read (42_hex.md R151). -/
def hexDecode (t : List (Option Byte)) : Except Stop (List Byte) :=
  if t.length % 2 = 1 then .error (.failed .invalidInput) else hexDecodeFrom 0 t

/-- The lowercase digit of a nibble (42_hex.md R153, 30_encoding.md R82). -/
def hexDigit (d : Nat) : Byte := if d ≤ 9 then BitVec.ofNat 8 (0x30 + d) else BitVec.ofNat 8 (0x61 + d - 10)

/-- `HexEncode(bs)`: two lowercase digits a byte, high nibble first (42_hex.md R153). -/
def hexEncode : List Byte → List Byte
  | [] => []
  | b :: bs => hexDigit (b.toNat / 16) :: hexDigit (b.toNat % 16) :: hexEncode bs

/-- HEXDEC: the text is decoded, then the bytes are appended, then the window is consumed (42_hex.md R152). -/
def execHexdec (s : State) : Result :=
  s.checked (s.settle .ibuf s.inPtr.toNat
    (match hexDecode s.window with
     | .error e => .error e
     | .ok out =>
       match s.append out with
       | .error e => .error e
       | .ok t => .ok t.consumeInput.succeed))

/-- HEXENC: every byte of the window is read, then the text is appended, then the window is consumed (42_hex.md R154). -/
def execHexenc (s : State) : Result :=
  s.checked (s.settle .ibuf s.inPtr.toNat
    (match readAll s.window with
     | .error e => .error e
     | .ok bs =>
       match s.append (hexEncode bs) with
       | .error e => .error e
       | .ok t => .ok t.consumeInput.succeed))

end Sys2Proof.Machine
end

