-- ==== Sys2Proof/Machine/Flags.lean ====
section
/-! DEFINITION. STATUS (10_state.md R24 to R29): the numbers of the error codes, the word the host reads, and the two
ways in which flags other than ERR are written: FOUND by the registry commands, OVR by host writes. -/

namespace Sys2Proof.Machine

/-- The number of an error code (60_exceptions.md R210). -/
def ErrCode.code : ErrCode → BitVec 4
  | .ok => 0
  | .bufferTooShort => 1
  | .varintTooLong => 2
  | .invalidInput => 3
  | .outputOverflow => 4
  | .badPointers => 5
  | .illegalCommand => 6

/-- The word a read of STATUS returns: BUSY bit 0, DONE 1, FOUND 2, OVR 3, ERR 11:8, all else 0 (10_state.md R24). -/
def State.statusWord (s : State) : Word :=
  (0 : BitVec 20) ++ s.err.code ++ (0 : BitVec 4) ++ BitVec.ofBool s.ovr ++ BitVec.ofBool s.found ++
    BitVec.ofBool s.done ++ BitVec.ofBool s.busy

/-- A host write of `w` to STATUS while BUSY = 0: bit 3 clears OVR, every other bit is ignored (10_state.md R24). -/
def State.clearOvr (s : State) (w : Word) : State := { s with ovr := s.ovr && !w.getLsbD 3 }

/-- A host write while BUSY = 1: ignored but for OVR (10_state.md R28, 70_reset_and_hazards.md R251). -/
def State.writeOverrun (s : State) : State := { s with ovr := true }

/-- What LKCODE and LKNAME write of a lookup's result: FOUND, FUNC_ID, FUNC_CODE (43_registry.md R176, R177). -/
def State.setLookup (s : State) : Option HashId → State
  | some h => { s with found := true, funcId := h.funcId, funcCode := h.code }
  | none => { s with found := false, funcId := noFuncId, funcCode := 0 }

/-- What VALID writes: FOUND alone (43_registry.md R178). -/
def State.setFound (s : State) (b : Bool) : State := { s with found := b }

end Sys2Proof.Machine
end

