-- ==== Sys2Proof/Machine/Lookup.lean ====
section
/-! DEFINITION. The registry commands LKCODE, LKNAME and VALID (43_registry.md section 2). A miss is no error. -/

namespace Sys2Proof.Machine

/-- LKCODE: the code it writes to FUNC_CODE is VALUE, which is the found row's code (43_registry.md R176). -/
def execLkcode (s : State) : Result := s.checked (.next (s.setLookup (lookupByCode s.value)).succeed)

/-- LKNAME: every byte of the window is the key, and the window is not consumed (43_registry.md R177). -/
def execLkname (s : State) : Result :=
  s.checked (s.settle .ibuf s.inPtr.toNat
    (match readAll s.window with
     | .ok k => .ok (s.setLookup (lookupByName s.config.nameTable k)).succeed
     | .error e => .error e))

/-- VALID: FOUND alone; FUNC_ID and FUNC_CODE stay (43_registry.md R178). -/
def execValid (s : State) : Result := s.checked (.next (s.setFound (isValid s.value)).succeed)

end Sys2Proof.Machine
end

