-- ==== Sys2Proof/Machine/Move.lean ====
section
/-! DEFINITION. The buffer command OUT2IN (44_buffer.md). -/

namespace Sys2Proof.Machine

/-- What OUT2IN does with the bytes it has read: they become the input window, and the output is empty; OBUF and the
IBUF bytes past them stay (44_buffer.md R200). -/
def State.moveToInput (s : State) (bs : List Byte) : State :=
  { s with ibuf := s.ibuf.writeBytes 0 bs, inPtr := 0, inLen := s.outLen, outLen := 0 }

/-- OUT2IN (44_buffer.md R200). -/
def execOut2in (s : State) : Result :=
  s.checked (s.settle .obuf 0
    (match readAll s.output with
     | .ok bs => .ok (s.moveToInput bs).succeed
     | .error e => .error e))

end Sys2Proof.Machine
end

