-- ==== Sys2Proof/Machine/Varint.lean ====
section
/-! DEFINITION. The varint commands VDECRAW, VDEC and VENC, and the functions they compute (41_varint.md). -/

namespace Sys2Proof.Machine

/-- Bit 7 of a varint byte: "high bit set, more bytes follow" (30_encoding.md R75). -/
def continues (b : Byte) : Bool := b.getLsbD 7

/-- The 7-bit group of a varint byte, as a 64-bit value (30_encoding.md R75). -/
def group (b : Byte) : DWord := (b &&& 0x7F).setWidth 64

/-- The loop of `DecodeRaw` at window index `i`, with the groups before it folded into `x` (41_varint.md R120): the
terminal byte at index `i` overflows when `i >= 10`, or `i = 9` and its value exceeds 1 (R122); a shift by 64 or more
loses the bits (R121); no terminal byte answers `(0, 0)` (R123). -/
def decodeRawFrom (i : Nat) (x : DWord) : List (Option Byte) → Except Stop (DWord × Int)
  | [] => .ok (0, 0)
  | none :: _ => .error (.unwritten i)
  | some b :: rest =>
    if continues b then decodeRawFrom (i + 1) (x ||| (group b <<< (7 * i))) rest
    else if 10 ≤ i ∨ (i = 9 ∧ 1 < b.toNat) then .ok (0, -(i + 1 : Int))
    else .ok (x ||| (b.setWidth 64 <<< (7 * i)), (i + 1 : Int))

/-- `DecodeRaw(buf)`: a 64-bit value and a signed count (41_varint.md R120). -/
def decodeRaw (buf : List (Option Byte)) : Except Stop (DWord × Int) := decodeRawFrom 0 0 buf

/-- The loop of `Encode`, with `fuel` bytes left to emit (41_varint.md R127). -/
def encodeVarintFuel : Nat → DWord → List Byte
  | 0, _ => []
  | fuel + 1, v =>
    if v >>> 7 ≠ 0 then (v.setWidth 8 ||| 0x80) :: encodeVarintFuel fuel (v >>> 7)
    else [v.setWidth 8 &&& 0x7F]

/-- `Encode(v)`, 1 to 10 bytes (41_varint.md R127; `MAX_VARINT_BYTES`, 00_scope.md R5). -/
def encodeVarint (v : DWord) : List Byte := encodeVarintFuel 10 v

/-- The integer a sequence of varint bytes denotes: the sum of the groups, the earliest the least significant
(30_encoding.md R76). No command computes it; it is what DecodeRaw is held against. -/
def varintSum : List Byte → Nat
  | [] => 0
  | b :: bs => b.toNat % 128 + 128 * varintSum bs

/-- VDECRAW: VALUE and COUNT are written on every outcome and ERR is OK (41_varint.md R125). -/
def execVdecraw (s : State) : Result :=
  s.checked (s.settle .ibuf s.inPtr.toNat
    (match decodeRaw s.window with
     | .ok (v, c) => .ok (s.setDecoded v c).succeed
     | .error e => .error e))

/-- What VDEC does with a decoded value and count: VALUE and COUNT are written on every outcome, and the cursor is
advanced on success alone (41_varint.md R126). -/
def State.finishVdec (s : State) (v : DWord) (c : Int) : State :=
  if c = 0 then (s.setDecoded v c).fail .bufferTooShort
  else if c < 0 then (s.setDecoded v c).fail .varintTooLong
  else ((s.setDecoded v c).advanceInput c.toNat).succeed

/-- VDEC (41_varint.md R126). -/
def execVdec (s : State) : Result :=
  s.checked (s.settle .ibuf s.inPtr.toNat
    (match decodeRaw s.window with
     | .ok (v, c) => .ok (s.finishVdec v c)
     | .error e => .error e))

/-- VENC (41_varint.md R128). It reads no buffer byte, so its rule cannot stop at one. -/
def execVenc (s : State) : Result :=
  s.checked (s.settle .ibuf s.inPtr.toNat
    (match s.append (encodeVarint s.value) with
     | .ok t => .ok t.succeed
     | .error e => .error e))

end Sys2Proof.Machine
end

