-- ==== Sys2Proof/Machine/Dispatch.lean ====
section
/-! DEFINITION. The dispatch of Exec (40_command_cycle.md R110): one arm per command. Each meaning makes the pointer
check of R103 before its own rule. -/

namespace Sys2Proof.Machine

def exec (i : Instr) (s : State) : Host.Outcome State Fault Refusal :=
  match i with
  | .vdecraw => Sys2Proof.Machine.execVdecraw s
  | .vdec => Sys2Proof.Machine.execVdec s
  | .venc => Sys2Proof.Machine.execVenc s
  | .hexdec => Sys2Proof.Machine.execHexdec s
  | .hexenc => Sys2Proof.Machine.execHexenc s
  | .lkcode => Sys2Proof.Machine.execLkcode s
  | .lkname => Sys2Proof.Machine.execLkname s
  | .valid => Sys2Proof.Machine.execValid s
  | .out2in => Sys2Proof.Machine.execOut2in s

end Sys2Proof.Machine
end

