-- ==== Sys2Proof/Machine/Bus.lean ====
section
/-! DEFINITION. The host bus (20_memory.md): which accesses are admitted, what a read returns, what a write does, also
while a command runs (70_reset_and_hazards.md R251, R252) and while reset is asserted (R240). -/

namespace Sys2Proof.Machine

/-- The offset of a register (10_state.md section 2). -/
def Reg.offset : Reg → Nat
  | .ident => 0x00
  | .cap => 0x04
  | .cmd => 0x08
  | .status => 0x0C
  | .valueLo => 0x10
  | .valueHi => 0x14
  | .count => 0x18
  | .inPtr => 0x1C
  | .inLen => 0x20
  | .outLen => 0x24
  | .funcId => 0x28
  | .funcCodeLo => 0x2C
  | .funcCodeHi => 0x30

/-- The registers in the order of their offsets. -/
def Reg.all : List Reg :=
  [.ident, .cap, .cmd, .status, .valueLo, .valueHi, .count, .inPtr, .inLen, .outLen, .funcId, .funcCodeLo, .funcCodeHi]

/-- The register at an offset, if it is a register offset (20_memory.md R52). -/
def regAt (off : Nat) : Option Reg := Reg.all.find? (fun r => r.offset == off)

/-- The offset of a buffer's window (20_memory.md R53, R55). -/
def Buffer.window : Buffer → Nat
  | .ibuf => 0x10000
  | .obuf => 0x20000

/-- The number of bytes of an access (20_memory.md R50). -/
def Size.bytes : Size → Nat
  | .one => 1
  | .two => 2
  | .four => 4

/-- What an admitted access is an access of: a register, or the bytes of a buffer from an index on. -/
inductive Place where
  | reg (r : Reg)
  | bytes (b : Buffer) (i : Nat)
deriving DecidableEq, Repr

/-- The bytes of a buffer, if the access is naturally aligned and inside BUF_CAP (20_memory.md R53). -/
def State.locateBytes (s : State) (b : Buffer) (i : Nat) (n : Size) : Option Place :=
  if i % n.bytes = 0 ∧ i + n.bytes ≤ s.cap then some (.bytes b i) else none

/-- The register of an access in the register range, by 4 bytes at a register offset (20_memory.md R52). -/
def locateReg (off : Nat) (n : Size) : Option Place := if n = .four then (regAt off).map Place.reg else none

/-- What an access of `n` bytes at a block offset is of, or none where it is not admitted: a register by a 4-byte access
at its offset (20_memory.md R52), a buffer through its window (R53), nothing else (R54, R55). -/
def State.locate (s : State) (off : Nat) (n : Size) : Option Place :=
  if off < 0x10000 then locateReg off n
  else if off < 0x20000 then s.locateBytes .ibuf (off - 0x10000) n
  else if off < 0x30000 then s.locateBytes .obuf (off - 0x20000) n
  else none

/-- The value of a register as the host reads it while BUSY = 0 (10_state.md section 2; reserved bits 0, R40; CMD reads
0, R41). -/
def State.readReg (s : State) : Reg → Word
  | .ident => 0x4D480100
  | .cap => (0 : Byte) ++ (10 : Byte) ++ s.config.bufCap
  | .cmd => 0
  | .status => s.statusWord
  | .valueLo => s.value.extractLsb' 0 32
  | .valueHi => s.value.extractLsb' 32 32
  | .count => s.count
  | .inPtr => s.inPtr.setWidth 32
  | .inLen => s.inLen.setWidth 32
  | .outLen => s.outLen.setWidth 32
  | .funcId => s.funcId.setWidth 32
  | .funcCodeLo => s.funcCode.extractLsb' 0 32
  | .funcCodeHi => s.funcCode.extractLsb' 32 32

/-- A host write to a register while BUSY = 0: CMD starts a command (40_command_cycle.md R100), STATUS clears OVR
(10_state.md R24), VALUE is written by halves (R30), the length registers take the low 16 bits (R32 to R34), a read-only
register ignores it (R41). -/
def State.writeReg (s : State) (r : Reg) (w : Word) : State :=
  match r with
  | .ident => s
  | .cap => s
  | .cmd => s.accept w
  | .status => s.clearOvr w
  | .valueLo => { s with value := s.value.extractLsb' 32 32 ++ w }
  | .valueHi => { s with value := w ++ s.value.extractLsb' 0 32 }
  | .count => s
  | .inPtr => { s with inPtr := w.setWidth 16 }
  | .inLen => { s with inLen := w.setWidth 16 }
  | .outLen => { s with outLen := w.setWidth 16 }
  | .funcId => s
  | .funcCodeLo => s
  | .funcCodeHi => s

/-- The bytes of an access as one word, the first the least significant (20_memory.md R51). -/
def wordOfBytes : List Byte → Word
  | [] => 0
  | b :: bs => (wordOfBytes bs <<< 8) ||| b.setWidth 32

/-- The first `n` bytes of a word, the least significant first (20_memory.md R51). -/
def bytesOfWord (w : Word) (n : Nat) : List Byte := (List.range n).map (fun k => w.extractLsb' (8 * k) 8)

/-- The state with `n` more free bytes drawn (log 6). -/
def State.drawn (s : State) (n : Nat) : State := { s with draws := s.draws + n }

/-- The `k`-th free byte of this access (20_memory.md R53, 70_reset_and_hazards.md R252; log 6). -/
def State.freeByte (s : State) (k : Nat) : Byte := Config.freeByte (s.draws + k)

/-- `n` bytes of a buffer as a host read returns them: a byte with no value reads as a free byte (20_memory.md R53). -/
def State.hostBytes (s : State) (b : Buffer) (i n : Nat) : List Byte :=
  (List.range n).map (fun k => ((s.buffer b).read (i + k)).getD (s.freeByte k))

/-- A word of `n` free bytes (70_reset_and_hazards.md R252). -/
def State.freeWord (s : State) (n : Nat) : Word := wordOfBytes ((List.range n).map s.freeByte)

/-- An admitted host read: STATUS is always true, everything else is free while BUSY = 1 (70_reset_and_hazards.md R252);
it changes no state of the block (20_memory.md R56). -/
def State.readPlace (s : State) (p : Place) (n : Size) : State × Response :=
  match p with
  | .reg .status => (s, .data s.statusWord)
  | .reg r => if s.busy then (s.drawn n.bytes, .data (s.freeWord n.bytes)) else (s, .data (s.readReg r))
  | .bytes b i =>
    if s.busy then (s.drawn n.bytes, .data (s.freeWord n.bytes))
    else (s.drawn n.bytes, .data (wordOfBytes (s.hostBytes b i n.bytes)))

/-- An admitted host write: while BUSY = 1 it sets OVR and is otherwise ignored (70_reset_and_hazards.md R251); else a
register write or the bytes of the word, one by one (20_memory.md R53). -/
def State.writePlace (s : State) (p : Place) (n : Size) (w : Word) : State :=
  if s.busy then s.writeOverrun
  else match p with
    | .reg r => s.writeReg r w
    | .bytes b i => s.setBuffer b ((s.buffer b).writeBytes i (bytesOfWord w n.bytes))

/-- The block offset of a bus address (20_memory.md R55). DESIGN CHOICE (log 11): an address below BASE is an address of
no device of the model, a bus error. -/
def State.offsetOf (s : State) (addr : Nat) : Option Nat :=
  if s.config.base ≤ addr then some (addr - s.config.base) else none

/-- What an access at a bus address is of: nothing while reset is asserted (70_reset_and_hazards.md R240). -/
def State.admitted (s : State) (addr : Nat) (n : Size) : Option Place :=
  if s.inReset then none
  else match s.offsetOf addr with
    | some off => s.locate off n
    | none => none

/-- One host access, performed whole (20_memory.md R57): a bus error changes no state (R54). -/
def State.access (s : State) : Access → State × Response
  | .read addr n =>
    match s.admitted addr n with
    | some p => s.readPlace p n
    | none => (s, .busError)
  | .write addr n w =>
    match s.admitted addr n with
    | some p => (s.writePlace p n w, .done)
    | none => (s, .busError)

end Sys2Proof.Machine
end

