-- ==== Sys2Proof/Machine/HostAgent.lean ====
section
/-! DEFINITION. The host as an agent: it runs the lines of its program one at a time (30_encoding.md R85), and makes at
most one bus access a step, in program order (20_memory.md R57, R58). -/

namespace Sys2Proof.Machine

/-- A host variable set to a value, in a list that holds each name once. -/
def setVar {α : Type} (env : List (Ident × α)) (x : Ident) (v : α) : List (Ident × α) :=
  (x, v) :: env.filter (fun p => decide (p.1 ≠ x))

/-- The value of a host variable, if it has one. -/
def getVar {α : Type} : List (Ident × α) → Ident → Option α
  | [], _ => none
  | (y, v) :: env, x => if y = x then some v else getVar env x

/-- The number whose bytes these are, the first the least significant, as on the bus (20_memory.md R51). -/
def littleEndian : List Byte → Nat
  | [] => 0
  | b :: bs => b.toNat + 256 * littleEndian bs

/-- A value used as a number. DESIGN CHOICE (log 4): a byte sequence is the number of its bytes in the bus's order, so one
byte is its own value. -/
def HostVal.toInt : HostVal → Int
  | .num n => n
  | .bytes bs => littleEndian bs

/-- A value used as a byte sequence. DESIGN CHOICE (log 4): a number is one byte, modulo 256. -/
def HostVal.toBytes : HostVal → List Byte
  | .num n => [BitVec.ofInt 8 n]
  | .bytes bs => bs

/-- Two values are equal: two byte sequences byte for byte, anything else as numbers (log 4). -/
def HostVal.same : HostVal → HostVal → Bool
  | .bytes xs, .bytes ys => decide (xs = ys)
  | a, b => decide (a.toInt = b.toInt)

/-- `bs[i]` (00_scope.md R10); outside the sequence a free value (log 4). -/
def byteAt (bs : List Byte) (i : Int) : Byte :=
  if 0 ≤ i then bs.getD i.toNat (Config.noByte bs i) else Config.noByte bs i

/-- Host arithmetic on the values the host has read (30_encoding.md R85): unbounded integers (00_scope.md R9), `bits` the
field of R8, byte sequences by R10. An unset variable is the free value (log 4). DESIGN CHOICE (log 4): R8 and R9 give a
negative integer no bits, and `bits` takes those of its two's complement; a field with `hi < lo` is 0. -/
def Expr.eval (env : List (Ident × HostVal)) : Expr → HostVal
  | .num n => .num n
  | .bytes bs => .bytes bs
  | .var x => (getVar env x).getD (.num (Config.unsetVar x))
  | .add a b => .num ((a.eval env).toInt + (b.eval env).toInt)
  | .sub a b => .num ((a.eval env).toInt - (b.eval env).toInt)
  | .mul a b => .num ((a.eval env).toInt * (b.eval env).toInt)
  | .bits a hi lo => .num (((a.eval env).toInt / 2 ^ lo) % 2 ^ (hi + 1 - lo))
  | .len a => .num (a.eval env).toBytes.length
  | .byte a i => .num (byteAt (a.eval env).toBytes (i.eval env).toInt).toNat
  | .slice a i j =>
    .bytes (((a.eval env).toBytes.take (j.eval env).toInt.toNat).drop (i.eval env).toInt.toNat)
  | .cat a b => .bytes ((a.eval env).toBytes ++ (b.eval env).toBytes)

/-- Host conditions (30_encoding.md R85), on the host's variables and on the responses it has received (20_memory.md
R54). -/
def Cond.holds (h : HostAgent) : Cond → Bool
  | .eq a b => (a.eval h.vars).same (b.eval h.vars)
  | .ne a b => !(a.eval h.vars).same (b.eval h.vars)
  | .lt a b => decide ((a.eval h.vars).toInt < (b.eval h.vars).toInt)
  | .le a b => decide ((a.eval h.vars).toInt ≤ (b.eval h.vars).toInt)
  | .busError => decide (h.resp = some .busError)
  | .lineError => h.failed

/-- The position of a label. DESIGN CHOICE (log 5): of one that stands on several lines, the first of them; of one that
stands nowhere, the end of the program. A well-formed program has neither (programWf). -/
def labelPos (program : List HostLine) (l : Ident) : Nat := program.findIdx (fun line => decide (line = .label l))

/-- The bus address of a register (20_memory.md R55). -/
def State.regAddr (s : State) (r : Reg) : Nat := s.config.base + r.offset

/-- The bus address of a buffer byte (20_memory.md R53, R55). DESIGN CHOICE (log 4): R53 gives an offset only for an index
below BUF_CAP; a host line that names a larger one has it added to the window's offset all the same, and the block answers
at the address that comes out, so an index of 0x10000 in IBUF is index 0 in OBUF. -/
def State.byteAddr (s : State) (b : Buffer) (i : Nat) : Nat := s.config.base + b.window + i

/-- The value of an expression in the host's variables. -/
def State.evalExpr (s : State) (e : Expr) : HostVal := e.eval s.host.vars

/-- An expression used as an index, a count or a block offset. DESIGN CHOICE (log 4): a negative number is 0, so `memRead`
and `memWrite` at a negative offset make their access at offset 0 (00_scope.md R10 names no access there). -/
def State.natOf (s : State) (e : Expr) : Nat := (s.evalExpr e).toInt.toNat

/-- An expression used as a bus word. -/
def State.wordOf (s : State) (e : Expr) : Word := BitVec.ofInt 32 (s.evalExpr e).toInt

/-- "One 1-byte `MemWrite` per listed byte" (30_encoding.md R85). -/
def State.byteWrites (s : State) (b : Buffer) (i : Nat) : List Byte → List BusOp
  | [] => []
  | x :: xs => .write (s.byteAddr b i) .one (x.setWidth 32) :: State.byteWrites s b (i + 1) xs

/-- "One 1-byte `MemRead` per index `i .. j-1`" (30_encoding.md R85), into one variable. -/
def State.byteReads (s : State) (b : Buffer) (i n : Nat) (x : Ident) : List BusOp :=
  (List.range n).map (fun k => .readByte (s.byteAddr b (i + k)) x)

/-- The host with its position moved. -/
def State.goto (s : State) (p : Nat) : State := { s with host := { s.host with pos := p } }

/-- The host past the line it is running. -/
def State.nextLine (s : State) : State := s.goto (s.host.pos + 1)

/-- The host with bus accesses to make before its next line. -/
def State.enqueue (s : State) (ops : List BusOp) : State := { s with host := { s.host with queue := ops } }

/-- The host with the accesses of a line to make, none of which has failed yet. -/
def State.lineUp (s : State) (ops : List BusOp) : State :=
  { s with host := { s.host with queue := ops, failed := false } }

/-- A host variable set, to a number or a byte sequence: what it held before is gone. -/
def State.assign (s : State) (x : Ident) (v : HostVal) : State :=
  { s with host := { s.host with vars := setVar s.host.vars x v } }

/-- A host variable set to a byte sequence. -/
def State.assignBytes (s : State) (x : Ident) (bs : List Byte) : State := s.assign x (.bytes bs)

/-- The bytes a host variable holds. -/
def State.bytesOf (s : State) (x : Ident) : List Byte := ((getVar s.host.vars x).getD (.bytes [])).toBytes

/-- The response to the host's last access kept, and a bus error kept for the rest of the line (20_memory.md R54). -/
def State.respond (s : State) (r : Response) : State :=
  { s with host := { s.host with resp := some r, failed := s.host.failed || decide (r = .busError) } }

/-- One line of the host's program: it moves the position, sets a variable, or lines up the bus accesses the line stands
for (30_encoding.md R85). -/
def State.runLine (s : State) : HostLine → State
  | .wr r v => s.nextLine.lineUp [.write (s.regAddr r) .four (s.wordOf v)]
  | .rd r x => s.nextLine.lineUp [.read (s.regAddr r) .four x]
  | .wrb b i bytes => s.nextLine.lineUp (s.byteWrites b (s.natOf i) (s.evalExpr bytes).toBytes)
  | .wrs b i text => s.nextLine.lineUp (s.byteWrites b (s.natOf i) (ascii text))
  | .rdb b i j x =>
    (s.nextLine.assignBytes x []).lineUp (s.byteReads b (s.natOf i) (s.natOf j - s.natOf i) x)
  | .cmd c => s.nextLine.lineUp [.write (s.regAddr .cmd) .four (encode c)]
  | .wait => s.nextLine.lineUp [.poll (s.regAddr .status)]
  | .ifGoto c l => if c.holds s.host then s.goto (labelPos s.host.program l) else s.nextLine
  | .goto l => s.goto (labelPos s.host.program l)
  | .label _ => s.nextLine
  | .assign x e => s.nextLine.assign x (s.evalExpr e)
  | .memRead off n x => s.nextLine.lineUp [.read (s.config.base + s.natOf off) n x]
  | .memWrite off n v => s.nextLine.lineUp [.write (s.config.base + s.natOf off) n (s.wordOf v)]

/-- What the host does with the response to an access it has made: a read's data goes to its variable, a bus error gives
no data (20_memory.md R54); `wait` reads again until it sees bit 0 clear (30_encoding.md R85). DESIGN CHOICE (log 13): a
bus error ends a `wait`, so that the program's next line decides what follows. -/
def State.receive (s : State) (op : BusOp) (r : Response) : State :=
  match op, r with
  | .read _ _ x, .data v => (s.respond r).assign x (.num v.toNat)
  | .readByte _ x, .data v => (s.respond r).assignBytes x (s.bytesOf x ++ [v.setWidth 8])
  | .poll a, .data v =>
    if v.getLsbD 0 then ((s.respond r).assign varS (.num v.toNat)).enqueue (.poll a :: s.host.queue)
    else (s.respond r).assign varS (.num v.toNat)
  | _, _ => s.respond r

/-- The access of a bus operation. -/
def BusOp.access : BusOp → Access
  | .write a n v => .write a n v
  | .read a n _ => .read a n
  | .readByte a _ => .read a .one
  | .poll a => .read a .four

/-- One bus operation: the access, then the host's use of the response. -/
def State.perform (s : State) (op : BusOp) : State :=
  match s.access op.access with
  | (t, r) => t.receive op r

/-- A step of the host: the next bus access of the line it is running, else the next line, else nothing, at the end of
its program (00_scope.md R7; log 3). -/
def State.hostTurn (s : State) : State :=
  match s.host.queue with
  | op :: rest => (s.enqueue rest).perform op
  | [] =>
    match s.host.program[s.host.pos]? with
    | some line => s.runLine line
    | none => s

end Sys2Proof.Machine
end

