-- ==== Sys2Proof/Machine/Cycle.lean ====
section
/-! DEFINITION. The command cycle (40_command_cycle.md): Exec of a command word, the completion step, and what each
agent does when it moves; the reset input (70_reset_and_hazards.md R240). -/

namespace Sys2Proof.Machine

/-- `Exec(w)`: an illegal word ends with ILLEGAL_COMMAND before the pointers are looked at (40_command_cycle.md R102,
R110, 60_exceptions.md R213); a command has the meaning exec gives it. -/
def execWord (w : Word) (s : State) : Result :=
  match decode w with
  | .ok i => exec i s
  | .error _ => .next (s.fail .illegalCommand)

/-- The completion of the latched command, in one atomic transition (40_command_cycle.md R101). -/
def complete (s : State) : Result := onNext State.completed (execWord s.cmdLatch s)

/-- The block has a step only while BUSY = 1 (40_command_cycle.md R101) and reset is not asserted
(70_reset_and_hazards.md R240). -/
def State.blockReady (s : State) : Bool := s.busy && !s.inReset

/-- A move of the block: the completion if it has a step, else nothing. -/
def blockTurn (s : State) : Result := if s.blockReady then complete s else .next s

/-- Reset asserted (70_reset_and_hazards.md R240). -/
def State.assertReset (s : State) : State := { s with inReset := true }

/-- Reset deasserted: the block's state is at its reset value and a pending command is gone (70_reset_and_hazards.md
R240). Deasserting what is not asserted is no edge (log 10). -/
def State.releaseReset (s : State) : State := if s.inReset then s.resetBlock else s

/-- What one move does. -/
def takeTurn (t : Turn) (s : State) : Result :=
  match t with
  | .host => .next s.hostTurn
  | .block => blockTurn s
  | .assertReset => .next s.assertReset
  | .releaseReset => .next s.releaseReset

/-- The moves that follow when the list of moves is used up. While a command is pending they are a free number of host
steps and then the block (log 2): "the completion step may happen after any number of host steps"
(70_reset_and_hazards.md R250), and it happens in the end (40_command_cycle.md R101). With no step of the block to wait
for, the host moves. -/
def State.refill (s : State) : State :=
  if s.blockReady then
    { s with turns := List.replicate (Config.delay s.delays) .host ++ [.block], delays := s.delays + 1 }
  else { s with turns := [.host] }

/-- The state with its list of moves filled where it was used up. -/
def State.planned (s : State) : State := if s.turns = [] then s.refill else s

/-- The next move, and the state with that move taken off the list (log 2). The list is not empty (planned_ne_nil), so
the move that stands here for an empty one is never taken. -/
def State.nextTurn (s : State) : Turn × State :=
  (s.planned.turns.headD .host, { s.planned with turns := s.planned.turns.tail })

/-- One move of the machine. -/
def move (s : State) : Result := takeTurn s.nextTurn.1 s.nextTurn.2

/-- A command word latched and the block to move next (log 3). -/
def State.latched (s : State) (w : Word) : State :=
  { s.accept w with inReset := false, turns := .block :: s.turns }

end Sys2Proof.Machine
end

