-- ==== Sys2Proof/Machine/Step.lean ====
section
/-! DEFINITION. One step of the machine: one move of the host, of the block, or of the reset input
(Sys2Proof/Machine/Cycle.lean). -/

namespace Sys2Proof.Machine

/-- One step (00_scope.md R7, 40_command_cycle.md R101). -/
def step (s : State) : Host.Outcome State Fault Refusal := move s

/-- `s` with the command word of `nbits` bits `w` accepted by CMD (40_command_cycle.md R100) and the block to move next,
so that the next step completes exactly it. The block fetches nothing (10_state.md R20): this stands for the host's
write to CMD (log 3). -/
def State.withFetchWord (s : State) (nbits w : Nat) : State := s.latched (BitVec.ofNat 32 (w % 2 ^ nbits))

end Sys2Proof.Machine
end

