-- ==== Sys2Proof/WellFormed.lean ====
section
/-! DEFINITION. What is well formed: a command and its word (30_encoding.md R70 to R73), the parameters of a chip
(00_scope.md R6), a host program (30_encoding.md R85). -/

namespace Sys2Proof

/-- Every command is well formed: it has no operand field whose value could be wrong (30_encoding.md R71). -/
def Instr.wf (_ : Instr) : Bool := true

/-- A command word is legal: RSV = 0 and OP is one of 0x01 to 0x09 (30_encoding.md R73). -/
def legalWord (w : Word) : Bool := decide (rsvField w = 0 ∧ 1 ≤ (opField w).toNat ∧ (opField w).toNat ≤ 9)

/-- A name of NAME_TABLE: "a non-empty byte sequence of lowercase ASCII" (43_registry.md R174). DEDUCED (log 14): every
byte is ASCII and none is an uppercase letter. -/
def nameWf (name : List Byte) : Bool :=
  !name.isEmpty && name.all (fun b => decide (b.toNat < 0x80) && !decide (0x41 ≤ b.toNat ∧ b.toNat ≤ 0x5A))

/-- NAME_TABLE: each name is well formed and "no two names are equal" (43_registry.md R174). -/
def nameTableWf (t : List (List Byte × HashId)) : Bool :=
  t.all (fun p => nameWf p.1) && decide ((t.map (fun p => p.1)).Nodup)

/-- The parameters of a chip: BUF_CAP at least 1 (10_state.md R35; its type bounds it by 65535), NAME_TABLE, and BASE
0x40000-aligned (20_memory.md R55). -/
def Config.wf (c : Config) : Bool :=
  decide (1 ≤ c.bufCap.toNat) && nameTableWf c.nameTable && decide (c.base % 0x40000 = 0)

namespace Machine

/-- The label a line goes to, if it goes to one. -/
def HostLine.target : HostLine → Option Ident
  | .ifGoto _ l => some l
  | .goto l => some l
  | _ => none

/-- The label that stands on a line, if one does. -/
def HostLine.labelled : HostLine → Option Ident
  | .label l => some l
  | _ => none

/-- The text a line writes is ASCII (30_encoding.md R85 "`wrs`"). -/
def HostLine.textWf : HostLine → Bool
  | .wrs _ _ text => text.all (fun c => decide (c.toNat < 0x80))
  | _ => true

/-- A host program goes only to labels that stand in it, no label stands on two lines, and its texts are ASCII
(30_encoding.md R85; log 5, log 17). -/
def programWf (p : List HostLine) : Bool :=
  p.all (fun line => line.textWf && (match line.target with
    | some l => decide (l ∈ p.filterMap HostLine.labelled)
    | none => true)) &&
  decide (p.filterMap HostLine.labelled).Nodup

end Machine

end Sys2Proof
end

