-- ==== Sys2Proof/Safety.lean ====
section
/-! DEFINITION. What claims are stated in: when a step is safe, what a command reads, and the invariant of the machine. -/

namespace Sys2Proof.Machine

/-- The next step meets no model fault (60_exceptions.md R214). -/
def State.Safe (s : State) : Prop := ∀ f, step s ≠ .fault f

/-- Every byte of the input window holds a value: what the host must see to before a command that reads the window
(70_reset_and_hazards.md R243). -/
def State.windowWritten (s : State) : Bool := s.window.all (fun o => o.isSome)

/-- Every byte of OBUF below OUT_LEN holds a value: what the host must see to before OUT2IN (70_reset_and_hazards.md
R243). -/
def State.outputWritten (s : State) : Bool := s.output.all (fun o => o.isSome)

/-- A pair of characters that spells the byte `b`: two hex digits, the first the high nibble (42_hex.md R151,
30_encoding.md R80). -/
def spells (p : Byte × Byte) (b : Byte) : Prop :=
  ∃ x y, hexval p.1 = some x ∧ hexval p.2 = some y ∧ b.toNat = x * 16 + y

/-- The text of a list of pairs of characters, every byte of it written. -/
def pairText (ps : List (Byte × Byte)) : List (Option Byte) := ps.flatMap (fun p => [some p.1, some p.2])

/-- An access of `n` bytes at block offset `off` is admitted on a chip of `cap` buffer bytes: 4 bytes at a register offset
(20_memory.md R52), or naturally aligned inside the window of a buffer (R53). -/
def admittedOffset (cap off : Nat) (n : Size) : Prop :=
  (n = .four ∧ off ∈ [0x00, 0x04, 0x08, 0x0C, 0x10, 0x14, 0x18, 0x1C, 0x20, 0x24, 0x28, 0x2C, 0x30]) ∨
    ∃ i, (off = 0x10000 + i ∨ off = 0x20000 + i) ∧ i % n.bytes = 0 ∧ i + n.bytes ≤ cap

/-- A buffer is what a buffer of BUF_CAP bytes can be (10_state.md R35): canonical, and no byte past its end. -/
def State.buffersWf (s : State) : Prop :=
  s.ibuf.wf ∧ s.ibuf.within s.cap ∧ s.obuf.wf ∧ s.obuf.within s.cap

/-- FUNC_ID and FUNC_CODE describe one row of the code table, or none (10_state.md R36, R37; 43_registry.md R170). -/
def State.lookupPaired (s : State) : Prop :=
  (s.funcId = noFuncId ∧ s.funcCode = 0) ∨ ∃ h : HashId, s.funcId = h.funcId ∧ s.funcCode = h.code

/-- COUNT, as a signed number, is in `-BUF_CAP .. 10` (10_state.md R31). -/
def State.countInRange (s : State) : Prop := -(s.cap : Int) ≤ s.count.toInt ∧ s.count.toInt ≤ 10

/-- The invariant of the machine: both buffers are well formed, BUSY and DONE are never both 1 (10_state.md R26),
FUNC_ID and FUNC_CODE agree, and COUNT is in its range. -/
structure State.Inv (s : State) : Prop where
  buffers : s.buffersWf
  flags   : ¬(s.busy = true ∧ s.done = true)
  paired  : s.lookupPaired
  counted : s.countInRange

end Sys2Proof.Machine
end

