-- ==== Sys2Proof/Certificates/Slice0/Obligations.lean ====
section
/-! DEFINITION. The statements about the machine, each from the rules of spec/ its docstring names. Each is a `def` of a
proposition; none is proved here. A statement speaks of every state and every chip's parameters, since the parameters
are a field of State. -/

open Sys2Proof Sys2Proof.Machine

-- ---- Encoding ----

/-- The nine command words, written out bit by bit from 30_encoding.md R70 and R72, and three illegal words. -/
def Obligations.WrittenOutWordsDecode : Prop :=
  decode 0b00000000000000000000000000000001#32 = .ok .vdecraw ∧
  decode 0b00000000000000000000000000000010#32 = .ok .vdec ∧
  decode 0b00000000000000000000000000000011#32 = .ok .venc ∧
  decode 0b00000000000000000000000000000100#32 = .ok .hexdec ∧
  decode 0b00000000000000000000000000000101#32 = .ok .hexenc ∧
  decode 0b00000000000000000000000000000110#32 = .ok .lkcode ∧
  decode 0b00000000000000000000000000000111#32 = .ok .lkname ∧
  decode 0b00000000000000000000000000001000#32 = .ok .valid ∧
  decode 0b00000000000000000000000000001001#32 = .ok .out2in ∧
  decode 0b00000000000000000000000000000000#32 = .error (.unassigned 0x00) ∧
  decode 0b00000000000000000000000000001010#32 = .error (.unassigned 0x0A) ∧
  decode 0b00000000000000000000000100000010#32 = .error (.reservedBits 1)

/-- 30_encoding.md R72: what each of the 256 values of OP selects. -/
def Obligations.OpcodeMapIsAsListed : Prop :=
  ∀ (op : Byte) (i : Instr), decode ((0 : BitVec 24) ++ op) = .ok i ↔
    (op = 0x01 ∧ i = .vdecraw) ∨ (op = 0x02 ∧ i = .vdec) ∨ (op = 0x03 ∧ i = .venc) ∨ (op = 0x04 ∧ i = .hexdec) ∨
    (op = 0x05 ∧ i = .hexenc) ∨ (op = 0x06 ∧ i = .lkcode) ∨ (op = 0x07 ∧ i = .lkname) ∨ (op = 0x08 ∧ i = .valid) ∨
    (op = 0x09 ∧ i = .out2in)

/-- Decode and encode agree (30_encoding.md section 1): a well-formed command is decoded from its word, and no other word
decodes to it, so no bit of the 32 is dropped. -/
def Obligations.DecodeInvertsEncode : Prop :=
  ∀ i : Instr, i.wf = true → decode (encode i) = .ok i ∧ ∀ w : Word, decode w = .ok i → w = encode i

/-- 30_encoding.md R73 and 40_command_cycle.md R102: which words are illegal, that one is still accepted, and that it
completes with ILLEGAL_COMMAND (code 6) and no other change, whatever the pointers are. -/
def Obligations.IllegalWordCompletesWithIllegalCommand : Prop :=
  (∀ w : Word, (∀ i, decode w ≠ .ok i) ↔
    (w.extractLsb' 0 8 = 0 ∨ 0x0A ≤ (w.extractLsb' 0 8).toNat ∨ w.extractLsb' 8 24 ≠ 0)) ∧
  ErrCode.code .illegalCommand = 6 ∧
  ∀ (s : State) (w : Word), (∀ i, decode w ≠ .ok i) → s.busy = false → s.inReset = false →
    s.access (.write (s.config.base + 0x08) .four w) =
      ({ s with cmdLatch := w, busy := true, done := false }, .done) ∧
    complete { s with cmdLatch := w, busy := true, done := false } =
      .next { s with cmdLatch := w, busy := false, done := true, err := .illegalCommand }

-- ---- The command cycle ----

/-- 40_command_cycle.md R103: the check of the buffer registers, made for every command; only if it passes does the
command's own rule run. -/
def Obligations.BadPointersStopEveryCommand : Prop :=
  ErrCode.code .badPointers = 5 ∧ ∀ (i : Instr) (s : State),
    (¬(s.inPtr.toNat ≤ s.inLen.toNat ∧ s.inLen.toNat ≤ s.config.bufCap.toNat ∧
        s.outLen.toNat ≤ s.config.bufCap.toNat) →
      exec i s = .next { s with err := .badPointers }) ∧
    ((s.inPtr.toNat ≤ s.inLen.toNat ∧ s.inLen.toNat ≤ s.config.bufCap.toNat ∧
        s.outLen.toNat ≤ s.config.bufCap.toNat) →
      ∀ t, exec i s = .next t → t.err ≠ .badPointers)

/-- 40_command_cycle.md R100: a 4-byte write to CMD is accepted while BUSY = 0, and ignored but for OVR while BUSY = 1. -/
def Obligations.CmdWriteIsAcceptedOrOverruns : Prop :=
  ∀ (s : State) (w : Word), s.inReset = false →
    (s.busy = false → s.access (.write (s.config.base + 0x08) .four w) =
      ({ s with cmdLatch := w, busy := true, done := false }, .done)) ∧
    (s.busy = true → (s.access (.write (s.config.base + 0x08) .four w)).1 = { s with ovr := true })

/-- The step runs the decoded command (40_command_cycle.md R101, R110): when the latched word decodes to a well-formed
command and the block is to move, the step is exec of it, with BUSY cleared and DONE set after it. Where the list of moves
is used up, the step is that of a list of a free number of host moves and then the block (70_reset_and_hazards.md R250; the
list and the count of delays are the model's own, log 2). -/
def Obligations.StepRunsDecodedCommand : Prop :=
  ∀ (s : State) (i : Instr), i.wf = true → decode s.cmdLatch = .ok i → s.busy = true → s.inReset = false →
    (∀ rest, s.turns = .block :: rest →
      step s = match exec i { s with turns := rest } with
        | .next t => .next { t with busy := false, done := true }
        | .fault f => .fault f
        | .refused r => .refused r) ∧
    (s.turns = [] → step s = step
      { s with turns := List.replicate (Config.delay s.delays) .host ++ [.block], delays := s.delays + 1 })

/-- 40_command_cycle.md R101: with BUSY = 0 a move of the block does nothing, and with BUSY = 1 what it answers has
BUSY = 0 and DONE = 1. -/
def Obligations.CompletionIsTheOnlyBlockStep : Prop :=
  ∀ s t : State, takeTurn .block s = .next t →
    (s.busy = false → t = s) ∧ (s.busy = true → s.inReset = false → t.busy = false ∧ t.done = true)

/-- 40_command_cycle.md R101 and 70_reset_and_hazards.md R250: an accepted command completes, however long the host
moves first: within the list of moves, the free delay drawn when it is used up (log 2), and one step more, unless the
model fault ends the run. -/
def Obligations.EveryAcceptedCommandCompletes : Prop :=
  ∀ s : State, s.busy = true → s.inReset = false → (∀ m ∈ s.turns, m = .host ∨ m = .block) →
    ∃ k, k ≤ s.turns.length + Config.delay s.delays + 1 ∧
      ((∃ t, Sys2Proof.core.run k s = .next t ∧ t.busy = false ∧ t.done = true) ∨
        ∃ b n, Sys2Proof.core.run k s = .fault (.uninitRead b n))

/-- 60_exceptions.md R214: the one fault, where it is raised, and that nothing is refused: no step, and no command word. -/
def Obligations.FaultsOnlyAtUnwrittenBytes : Prop :=
  ∀ s : State, (∀ r, step s ≠ .refused r) ∧ (∀ w r, execWord w s ≠ .refused r) ∧ ∀ f, step s = .fault f →
    s.busy = true ∧ ((∃ n, f = .uninitRead .ibuf n ∧ s.ibuf.read n = none ∧ s.inPtr.toNat ≤ n ∧ n < s.inLen.toNat) ∨
      (∃ n, f = .uninitRead .obuf n ∧ s.obuf.read n = none ∧ n < s.outLen.toNat ∧ decode s.cmdLatch = .ok .out2in))

/-- 70_reset_and_hazards.md R243: a host that has written every byte it points a command at never meets the fault; every
command then answers a next state. -/
def Obligations.CommandsCompleteOnWrittenBytes : Prop :=
  ∀ (i : Instr) (s : State),
    (i ∈ [.vdecraw, .vdec, .hexdec, .hexenc, .lkname] →
      ∀ n, s.inPtr.toNat ≤ n → n < s.inLen.toNat → s.ibuf.read n ≠ none) →
    (i = .out2in → ∀ n, n < s.outLen.toNat → s.obuf.read n ≠ none) →
    ∃ t, exec i s = .next t

/-- 40_command_cycle.md R106: a command that ends with an error code changes no buffer, no pointer, no registry result,
and no VALUE or COUNT unless it is VDEC. -/
def Obligations.FailingCommandWritesNothing : Prop :=
  ∀ (i : Instr) (s t : State), exec i s = .next t → t.err ≠ .ok →
    (i ≠ .vdec → t = { s with err := t.err }) ∧
    (i = .vdec → t = { s with err := t.err, value := t.value, count := t.count })

/-- 40_command_cycle.md R105, Append: the bytes stored at OUT_LEN and OUT_LEN advanced, nothing else changed; or
OUTPUT_OVERFLOW (code 4) and nothing written. -/
def Obligations.AppendIsAllOrNothing : Prop :=
  ErrCode.code .outputOverflow = 4 ∧ ∀ (s : State) (bs : List Byte),
    (s.config.bufCap.toNat < s.outLen.toNat + bs.length → s.append bs = .error (.failed .outputOverflow)) ∧
    (s.outLen.toNat + bs.length ≤ s.config.bufCap.toNat →
      ∃ t, s.append bs = .ok t ∧ t = { s with obuf := t.obuf, outLen := t.outLen } ∧
        t.outLen.toNat = s.outLen.toNat + bs.length ∧
        (∀ k (h : k < bs.length), t.obuf.read (s.outLen.toNat + k) = some bs[k]) ∧
        ∀ a, a < s.outLen.toNat ∨ s.outLen.toNat + bs.length ≤ a → t.obuf.read a = s.obuf.read a)

/-- 10_state.md R29 (with the numbers of 60_exceptions.md R210): ERR is 0 after reset; a completion writes it, a code of 0
to 6, whatever it was before; and no step but a completion or a released reset changes it. -/
def Obligations.ErrChangesOnlyAtCompletion : Prop :=
  ErrCode.code .ok = 0 ∧ ErrCode.code .bufferTooShort = 1 ∧ ErrCode.code .varintTooLong = 2 ∧
  ErrCode.code .invalidInput = 3 ∧ ErrCode.code .outputOverflow = 4 ∧ ErrCode.code .badPointers = 5 ∧
  ErrCode.code .illegalCommand = 6 ∧ (∀ e : ErrCode, e.code.toNat ≤ 6) ∧ (∀ c, (State.resetWith c).err.code = 0) ∧
  (∀ (s : State) (e : ErrCode), complete { s with err := e } = complete s) ∧
  ∀ s t : State, step s = .next t → t.err ≠ s.err →
    (s.nextTurn.1 = .block ∧ s.busy = true ∧ s.inReset = false) ∨ (s.nextTurn.1 = .releaseReset ∧ s.inReset = true)

/-- A command's result does not depend on bytes outside its operand (40_command_cycle.md section 3): with the same
registers and parameters, the same window if it is a command on the window, and the same output bytes if it is OUT2IN,
whatever the other buffer bytes, CMDLATCH, BUSY, DONE, OVR, the reset input, the host and the model's own fields are, the
same results come out. The bytes stored are the same whatever was there before; every other byte is the same wherever it
was the same before. -/
def Obligations.ResultDependsOnlyOnWhatIsRead : Prop :=
  ∀ (i : Instr) (s : State) (m n : Memory) (w : Word) (b d o r : Bool) (h : HostAgent) (ts : List Turn) (l k : Nat),
    let u : State := { s with ibuf := m, obuf := n, cmdLatch := w, busy := b, done := d, ovr := o, inReset := r,
                              host := h, turns := ts, delays := l, draws := k }
    (i ∈ [.vdecraw, .vdec, .hexdec, .hexenc, .lkname] → u.window = s.window) → (i = .out2in → u.output = s.output) →
    match exec i s, exec i u with
    | .next t, .next v =>
      v = { t with ibuf := v.ibuf, obuf := v.obuf, cmdLatch := w, busy := b, done := d, ovr := o, inReset := r,
                   host := h, turns := ts, delays := l, draws := k } ∧
      (∀ a, s.ibuf.read a = m.read a → t.ibuf.read a = v.ibuf.read a) ∧
      (∀ a, s.obuf.read a = n.read a → t.obuf.read a = v.obuf.read a) ∧
      (∀ a, s.outLen.toNat ≤ a → a < t.outLen.toNat → t.obuf.read a = v.obuf.read a) ∧
      (i = .out2in → t.err = .ok → ∀ a, a < s.outLen.toNat → t.ibuf.read a = v.ibuf.read a)
    | .fault f, .fault g => f = g
    | _, _ => False

-- ---- Varint commands ----

/-- 41_varint.md R126, VDEC, once the pointer check has passed: the decoded value and the cursor advanced past its bytes;
VARINT_TOO_LONG with VALUE 0 and the negated count; BUFFER_TOO_SHORT with VALUE 0 and COUNT 0; the model fault at the
first unwritten byte scanned. A byte of 128 or more is a continuation byte, one below 128 a terminal byte. -/
def Obligations.VdecOutcomes : Prop :=
  decode 0x02#32 = .ok .vdec ∧
  (∀ s : State, s.pointersOk = false → exec .vdec s = .next { s with err := .badPointers }) ∧
  ∀ s : State, s.pointersOk = true →
    (∀ (cs : List Byte) (b : Byte) (rest : List (Option Byte)), s.window = (cs ++ [b]).map some ++ rest →
      (∀ c ∈ cs, 128 ≤ c.toNat) → b.toNat < 128 → (cs.length < 9 ∨ cs.length = 9 ∧ b.toNat ≤ 1) →
      varintSum (cs ++ [b]) < 2 ^ 64 ∧ s.inPtr.toNat + cs.length + 1 ≤ s.inLen.toNat ∧
      exec .vdec s = .next { s with value := BitVec.ofNat 64 (varintSum (cs ++ [b])),
                                    count := BitVec.ofNat 32 (cs.length + 1),
                                    inPtr := BitVec.ofNat 16 (s.inPtr.toNat + cs.length + 1), err := .ok }) ∧
    (∀ (cs : List Byte) (b : Byte) (rest : List (Option Byte)), s.window = (cs ++ [b]).map some ++ rest →
      (∀ c ∈ cs, 128 ≤ c.toNat) → b.toNat < 128 → (10 ≤ cs.length ∨ cs.length = 9 ∧ 1 < b.toNat) →
      exec .vdec s = .next { s with value := 0, count := BitVec.ofInt 32 (-(cs.length + 1 : Int)),
                                    err := .varintTooLong }) ∧
    (∀ cs : List Byte, s.window = cs.map some → (∀ c ∈ cs, 128 ≤ c.toNat) →
      exec .vdec s = .next { s with value := 0, count := 0, err := .bufferTooShort }) ∧
    (∀ (cs : List Byte) (rest : List (Option Byte)), s.window = cs.map some ++ none :: rest →
      (∀ c ∈ cs, 128 ≤ c.toNat) → exec .vdec s = .fault (.uninitRead .ibuf (s.inPtr.toNat + cs.length)))

/-- 41_varint.md R125, VDECRAW, once the pointer check has passed: VALUE and COUNT as VDEC's, ERR always OK, the cursor
never moved. -/
def Obligations.VdecrawOutcomes : Prop :=
  decode 0x01#32 = .ok .vdecraw ∧
  (∀ s : State, s.pointersOk = false → exec .vdecraw s = .next { s with err := .badPointers }) ∧
  ∀ s : State, s.pointersOk = true →
    (∀ (cs : List Byte) (b : Byte) (rest : List (Option Byte)), s.window = (cs ++ [b]).map some ++ rest →
      (∀ c ∈ cs, 128 ≤ c.toNat) → b.toNat < 128 → (cs.length < 9 ∨ cs.length = 9 ∧ b.toNat ≤ 1) →
      varintSum (cs ++ [b]) < 2 ^ 64 ∧
      exec .vdecraw s = .next { s with value := BitVec.ofNat 64 (varintSum (cs ++ [b])),
                                       count := BitVec.ofNat 32 (cs.length + 1), err := .ok }) ∧
    (∀ (cs : List Byte) (b : Byte) (rest : List (Option Byte)), s.window = (cs ++ [b]).map some ++ rest →
      (∀ c ∈ cs, 128 ≤ c.toNat) → b.toNat < 128 → (10 ≤ cs.length ∨ cs.length = 9 ∧ 1 < b.toNat) →
      exec .vdecraw s = .next { s with value := 0, count := BitVec.ofInt 32 (-(cs.length + 1 : Int)), err := .ok }) ∧
    (∀ cs : List Byte, s.window = cs.map some → (∀ c ∈ cs, 128 ≤ c.toNat) →
      exec .vdecraw s = .next { s with value := 0, count := 0, err := .ok }) ∧
    (∀ (cs : List Byte) (rest : List (Option Byte)), s.window = cs.map some ++ none :: rest →
      (∀ c ∈ cs, 128 ≤ c.toNat) → exec .vdecraw s = .fault (.uninitRead .ibuf (s.inPtr.toNat + cs.length)))

/-- 41_varint.md R122: where the terminal byte at index `i` overflows, DecodeRaw answers value 0 and count `-(i+1)`. -/
def Obligations.DecodeRawOverflows : Prop :=
  ∀ (cs : List Byte) (b : Byte) (rest : List (Option Byte)), (∀ c ∈ cs, c.getLsbD 7 = true) → b.getLsbD 7 = false →
    ((10 ≤ cs.length ∨ cs.length = 9 ∧ 1 < b.toNat) ↔
      decodeRaw (cs.map some ++ some b :: rest) = .ok (0, -(cs.length + 1 : Int)))

/-- 41_varint.md R123: when no byte has bit 7 clear, DecodeRaw answers `(0, 0)`, whatever the length; and it answers
that in no other case. -/
def Obligations.DecodeRawTooShort : Prop :=
  ∀ bs : List Byte, (∀ c ∈ bs, c.getLsbD 7 = true) ↔ decodeRaw (bs.map some) = .ok (0, 0)

/-- 41_varint.md R128, VENC, once the pointer check has passed: the bytes of Encode(VALUE) stored at OUT_LEN, OUT_LEN
advanced, and nothing else changed but ERR; or OUTPUT_OVERFLOW and nothing written. It reads no buffer byte. -/
def Obligations.VencOutcomes : Prop :=
  decode 0x03#32 = .ok .venc ∧
  (∀ s : State, s.pointersOk = false → exec .venc s = .next { s with err := .badPointers }) ∧
  ∀ s : State, s.pointersOk = true →
    (s.outLen.toNat + (encodeVarint s.value).length ≤ s.config.bufCap.toNat →
      ∃ t, exec .venc s = .next t ∧
        t = { s with obuf := t.obuf, outLen := BitVec.ofNat 16 (s.outLen.toNat + (encodeVarint s.value).length),
                     err := .ok } ∧
        (∀ k (h : k < (encodeVarint s.value).length),
          t.obuf.read (s.outLen.toNat + k) = some ((encodeVarint s.value)[k])) ∧
        ∀ a, a < s.outLen.toNat ∨ s.outLen.toNat + (encodeVarint s.value).length ≤ a →
          t.obuf.read a = s.obuf.read a) ∧
    (s.config.bufCap.toNat < s.outLen.toNat + (encodeVarint s.value).length →
      exec .venc s = .next { s with err := .outputOverflow })

/-- What Encode emits (41_varint.md section 1, 30_encoding.md section 2): continuation bytes and then a terminal byte, the
sum of whose groups is the value; and as many bytes as the value's bits need, 7 a byte, at least one. -/
def Obligations.EncodeEmitsMinimalVarint : Prop :=
  ∀ v : DWord, ∃ (cs : List Byte) (b : Byte), encodeVarint v = cs ++ [b] ∧ (∀ c ∈ cs, 128 ≤ c.toNat) ∧
    b.toNat < 128 ∧ varintSum (cs ++ [b]) = v.toNat ∧ v.toNat < 2 ^ (7 * (cs.length + 1)) ∧
    (cs ≠ [] → 2 ^ (7 * cs.length) ≤ v.toNat) ∧ cs.length + 1 ≤ 10

/-- The round trip (41_varint.md section 1): Encode's bytes, whatever follows them, decode to the value and their
number. -/
def Obligations.VarintRoundTrip : Prop :=
  ∀ (v : DWord) (rest : List (Option Byte)),
    decodeRaw ((encodeVarint v).map some ++ rest) = .ok (v, ((encodeVarint v).length : Int))

/-- Minimality (41_varint.md section 1): no shorter byte sequence decodes to the value. -/
def Obligations.NoShorterVarintDecodesToValue : Prop :=
  ∀ (v : DWord) (bs : List Byte) (c : Int), decodeRaw (bs.map some) = .ok (v, c) → 0 < c →
    (encodeVarint v).length ≤ c.toNat ∧ c.toNat ≤ bs.length

/-- Two VDECs in a row read the code and then the length of a multihash record, and leave the digest in the window
(41_varint.md section 2, 30_encoding.md section 5). -/
def Obligations.TwoVdecsReadRecordHeader : Prop :=
  ∀ (s : State) (code len : DWord) (digest : List Byte), s.pointersOk = true →
    s.window = (encodeVarint code ++ encodeVarint len ++ digest).map some →
    ∃ t u, exec .vdec s = .next t ∧ t.value = code ∧ exec .vdec t = .next u ∧ u.value = len ∧ u.err = .ok ∧
      u.window = digest.map some ∧ u.inLen = s.inLen

/-- VENC, OUT2IN and VDECRAW in a row give the value back with its byte count: VENC appends Encode(VALUE) and VDECRAW
writes VALUE and COUNT (41_varint.md section 2), by Append (40_command_cycle.md section 3) and OUT2IN (44_buffer.md), and
DecodeRaw inverts Encode (41_varint.md section 1). Where BUF_CAP is below 10 the encoding may not fit: VencOutcomes says
what VENC does there. -/
def Obligations.VencOut2inVdecrawGivesValueBack : Prop :=
  ∀ s : State, s.pointersOk = true → s.outLen = 0 → 10 ≤ s.config.bufCap.toNat →
    ∃ t u v, exec .venc s = .next t ∧ exec .out2in t = .next u ∧ exec .vdecraw u = .next v ∧ v.value = s.value ∧
      v.count = BitVec.ofNat 32 (encodeVarint s.value).length ∧ v.err = .ok ∧ v.outLen = 0

/-- The frame of VDECRAW and VDEC (30_encoding.md section 1): VALUE, COUNT and ERR, and IN_PTR for VDEC, are all that can
change; no byte of either buffer does. -/
def Obligations.VarintDecodeFrame : Prop :=
  ∀ (i : Instr) (s t : State), i ∈ [.vdecraw, .vdec] → exec i s = .next t →
    t = { s with value := t.value, count := t.count, inPtr := t.inPtr, err := t.err } ∧
    (i = .vdecraw → t.inPtr = s.inPtr) ∧ ∀ b a, (t.buffer b).read a = (s.buffer b).read a

-- ---- Hex commands ----

/-- 42_hex.md R150 and the digits of R153: the value of every byte as a hex digit, and the digit written for a value. -/
def Obligations.HexDigitTables : Prop :=
  (∀ k, k < 10 → hexval (BitVec.ofNat 8 (0x30 + k)) = some k) ∧
  (∀ k, k < 6 → hexval (BitVec.ofNat 8 (0x61 + k)) = some (10 + k)) ∧
  (∀ k, k < 6 → hexval (BitVec.ofNat 8 (0x41 + k)) = some (10 + k)) ∧
  (∀ c : Byte, ¬(0x30 ≤ c.toNat ∧ c.toNat ≤ 0x39) → ¬(0x61 ≤ c.toNat ∧ c.toNat ≤ 0x66) →
    ¬(0x41 ≤ c.toNat ∧ c.toNat ≤ 0x46) → hexval c = none) ∧
  (∀ k, k < 10 → hexDigit k = BitVec.ofNat 8 (0x30 + k)) ∧
  (∀ k, 10 ≤ k → k < 16 → hexDigit k = BitVec.ofNat 8 (0x61 + (k - 10)))

/-- 42_hex.md R152 (with R151), HEXDEC, once the pointer check has passed: the bytes the pairs spell stored at OUT_LEN,
the window consumed; OUTPUT_OVERFLOW; INVALID_INPUT for odd length, whatever the bytes hold, and for the first character
that is no digit; the model fault at the first unwritten character reached. -/
def Obligations.HexdecOutcomes : Prop :=
  decode 0x04#32 = .ok .hexdec ∧
  (∀ s : State, s.pointersOk = false → exec .hexdec s = .next { s with err := .badPointers }) ∧
  ∀ s : State, s.pointersOk = true →
    (∀ (ps : List (Byte × Byte)) (out : List Byte), s.window = pairText ps → List.Forall₂ spells ps out →
      s.outLen.toNat + out.length ≤ s.config.bufCap.toNat →
      ∃ t, exec .hexdec s = .next t ∧
        t = { s with obuf := t.obuf, outLen := BitVec.ofNat 16 (s.outLen.toNat + out.length), inPtr := s.inLen,
                     err := .ok } ∧
        (∀ k (h : k < out.length), t.obuf.read (s.outLen.toNat + k) = some out[k]) ∧
        ∀ a, a < s.outLen.toNat ∨ s.outLen.toNat + out.length ≤ a → t.obuf.read a = s.obuf.read a) ∧
    (∀ (ps : List (Byte × Byte)) (out : List Byte), s.window = pairText ps → List.Forall₂ spells ps out →
      s.config.bufCap.toNat < s.outLen.toNat + out.length →
      exec .hexdec s = .next { s with err := .outputOverflow }) ∧
    ((s.inLen.toNat - s.inPtr.toNat) % 2 = 1 → exec .hexdec s = .next { s with err := .invalidInput }) ∧
    (∀ (ps : List (Byte × Byte)) (out : List Byte) (c d : Option Byte) (rest : List (Option Byte)),
      (s.inLen.toNat - s.inPtr.toNat) % 2 = 0 →
      s.window = pairText ps ++ c :: d :: rest → List.Forall₂ spells ps out →
      (∀ a, c = some a → hexval a = none → exec .hexdec s = .next { s with err := .invalidInput }) ∧
      (c = none → exec .hexdec s = .fault (.uninitRead .ibuf (s.inPtr.toNat + 2 * ps.length))) ∧
      (∀ a x, c = some a → hexval a = some x →
        (∀ e, d = some e → hexval e = none → exec .hexdec s = .next { s with err := .invalidInput }) ∧
        (d = none → exec .hexdec s = .fault (.uninitRead .ibuf (s.inPtr.toNat + 2 * ps.length + 1)))))

/-- 42_hex.md R154 (with R153), HEXENC, once the pointer check has passed: two lowercase digits a byte, the high nibble
first, stored at OUT_LEN, the window consumed; OUTPUT_OVERFLOW; the model fault at the first unwritten byte. -/
def Obligations.HexencOutcomes : Prop :=
  decode 0x05#32 = .ok .hexenc ∧
  (∀ s : State, s.pointersOk = false → exec .hexenc s = .next { s with err := .badPointers }) ∧
  ∀ s : State, s.pointersOk = true →
    (∀ bs : List Byte, s.window = bs.map some → s.outLen.toNat + 2 * bs.length ≤ s.config.bufCap.toNat →
      ∃ t, exec .hexenc s = .next t ∧
        t = { s with obuf := t.obuf, outLen := BitVec.ofNat 16 (s.outLen.toNat + 2 * bs.length), inPtr := s.inLen,
                     err := .ok } ∧
        (∀ k (h : k < bs.length),
          t.obuf.read (s.outLen.toNat + 2 * k) = some (hexDigit (bs[k].toNat / 16)) ∧
          t.obuf.read (s.outLen.toNat + 2 * k + 1) = some (hexDigit (bs[k].toNat % 16))) ∧
        ∀ a, a < s.outLen.toNat ∨ s.outLen.toNat + 2 * bs.length ≤ a → t.obuf.read a = s.obuf.read a) ∧
    (∀ bs : List Byte, s.window = bs.map some → s.config.bufCap.toNat < s.outLen.toNat + 2 * bs.length →
      exec .hexenc s = .next { s with err := .outputOverflow }) ∧
    (∀ (bs : List Byte) (rest : List (Option Byte)), s.window = bs.map some ++ none :: rest →
      exec .hexenc s = .fault (.uninitRead .ibuf (s.inPtr.toNat + bs.length)))

/-- Hex text written is hex text read (42_hex.md section 1): HexDecode inverts HexEncode on every byte sequence. -/
def Obligations.HexRoundTripOnBytes : Prop :=
  ∀ bs : List Byte, hexDecode ((hexEncode bs).map some) = .ok bs

/-- HexEncode inverts HexDecode on text exactly when the text has no uppercase digit (42_hex.md section 1). -/
def Obligations.HexRoundTripOnLowercaseText : Prop :=
  ∀ text bs : List Byte, hexDecode (text.map some) = .ok bs →
    (hexEncode bs = text ↔ ∀ c ∈ text, ¬(0x41 ≤ c.toNat ∧ c.toNat ≤ 0x46))

/-- The frame of VENC, HEXDEC and HEXENC: OBUF, OUT_LEN, ERR, and IN_PTR for the hex commands, are all that can change,
and IBUF never does (30_encoding.md section 1); OBUF changes only in the bytes stored to, from OUT_LEN on (Append) and none
when the command ends with an error (40_command_cycle.md section 3), as many as the command's output is long (41_varint.md
section 2, 42_hex.md section 2). -/
def Obligations.OutputCommandsFrame : Prop :=
  ∀ (i : Instr) (s t : State) (width : Nat),
    (i = .venc ∧ width = (encodeVarint s.value).length) ∨ (i = .hexdec ∧ width = s.window.length / 2) ∨
      (i = .hexenc ∧ width = 2 * s.window.length) →
    exec i s = .next t →
    t = { s with obuf := t.obuf, outLen := t.outLen, inPtr := t.inPtr, err := t.err } ∧
    (i = .venc → t.inPtr = s.inPtr) ∧ (∀ a, t.ibuf.read a = s.ibuf.read a) ∧
    (∀ a, a < s.outLen.toNat ∨ s.outLen.toNat + width ≤ a → t.obuf.read a = s.obuf.read a) ∧
    (t.err ≠ .ok → ∀ a, t.obuf.read a = s.obuf.read a)

-- ---- Registry commands ----

/-- 43_registry.md R170: the code table, row by row and no row more; codes and identifiers are paired one to one; 31 is
the number of none. -/
def Obligations.CodeTableIsAsListed : Prop :=
  HashId.all.map (fun h => (h, h.funcId, h.code)) =
    [(.ident, 0, 0x00), (.sha1, 1, 0x11), (.sha2x256, 2, 0x12), (.sha2x512, 3, 0x13), (.sha3x512, 4, 0x14),
     (.sha3x384, 5, 0x15), (.sha3x256, 6, 0x16), (.sha3x224, 7, 0x17), (.shake128, 8, 0x18), (.shake256, 9, 0x19)] ++
    [(.keccak224, 10, 0x1A), (.keccak256, 11, 0x1B), (.keccak384, 12, 0x1C), (.keccak512, 13, 0x1D),
     (.murmur3, 14, 0x22), (.dblSha2x256, 15, 0x56), (.x11, 16, 0x1100), (.blake2bMin, 17, 0xB201),
     (.blake2bMax, 18, 0xB240), (.blake2sMin, 19, 0xB241), (.blake2sMax, 20, 0xB260)] ∧
  (∀ h : HashId, h ∈ HashId.all ∧ h.funcId.toNat ≤ 20 ∧ lookupByCode h.code = some h) ∧
  (∀ g h : HashId, g.funcId = h.funcId → g = h) ∧ (∀ g h : HashId, g.code = h.code → g = h) ∧ noFuncId = 31

/-- 43_registry.md R176 (with R171), LKCODE, once the pointer check has passed: a hit on the row whose code is the whole
of VALUE, and a miss when no row's is. -/
def Obligations.LkcodeOutcomes : Prop :=
  decode 0x06#32 = .ok .lkcode ∧
  (∀ s : State, s.pointersOk = false → exec .lkcode s = .next { s with err := .badPointers }) ∧
  ∀ s : State, s.pointersOk = true →
    (∀ h : HashId, s.value = h.code →
      exec .lkcode s = .next { s with found := true, funcId := h.funcId, funcCode := s.value, err := .ok }) ∧
    ((∀ h : HashId, s.value ≠ h.code) →
      exec .lkcode s = .next { s with found := false, funcId := 31, funcCode := 0, err := .ok })

/-- 43_registry.md R177 (with R175), LKNAME, once the pointer check has passed: a hit on the name equal to the whole
window, in a table with no two equal names; a miss when no name equals it; the model fault at the first unwritten
byte. The window is not consumed. -/
def Obligations.LknameOutcomes : Prop :=
  decode 0x07#32 = .ok .lkname ∧
  (∀ s : State, s.pointersOk = false → exec .lkname s = .next { s with err := .badPointers }) ∧
  ∀ s : State, s.pointersOk = true →
    (∀ (k : List Byte) (h : HashId), s.window = k.map some → (s.config.nameTable.map (fun p => p.1)).Nodup →
      (k, h) ∈ s.config.nameTable →
      exec .lkname s = .next { s with found := true, funcId := h.funcId, funcCode := h.code, err := .ok }) ∧
    (∀ k : List Byte, s.window = k.map some → (∀ p ∈ s.config.nameTable, p.1 ≠ k) →
      exec .lkname s = .next { s with found := false, funcId := 31, funcCode := 0, err := .ok }) ∧
    (∀ (bs : List Byte) (rest : List (Option Byte)), s.window = bs.map some ++ none :: rest →
      exec .lkname s = .fault (.uninitRead .ibuf (s.inPtr.toNat + bs.length)))

/-- 43_registry.md R178 (with R179), VALID, once the pointer check has passed: FOUND says whether VALUE is a code of the
table, and nothing else changes but ERR. -/
def Obligations.ValidOutcomes : Prop :=
  decode 0x08#32 = .ok .valid ∧
  (∀ s : State, s.pointersOk = false → exec .valid s = .next { s with err := .badPointers }) ∧
  ∀ s : State, s.pointersOk = true →
    ((∃ h : HashId, s.value = h.code) → exec .valid s = .next { s with found := true, err := .ok }) ∧
    ((∀ h : HashId, s.value ≠ h.code) → exec .valid s = .next { s with found := false, err := .ok })

/-- The frame of LKCODE, LKNAME and VALID (30_encoding.md section 1): FOUND, ERR and, but for VALID, FUNC_ID and
FUNC_CODE are all that can change; no byte of either buffer does. -/
def Obligations.RegistryCommandsFrame : Prop :=
  ∀ (i : Instr) (s t : State), i ∈ [.lkcode, .lkname, .valid] → exec i s = .next t →
    t = { s with found := t.found, funcId := t.funcId, funcCode := t.funcCode, err := t.err } ∧
    (i = .valid → t.funcId = s.funcId ∧ t.funcCode = s.funcCode) ∧
    ∀ b a, (t.buffer b).read a = (s.buffer b).read a

/-- 10_state.md R27: FOUND is written only by LKCODE, LKNAME and VALID, and only when they end with ERR = OK: 1 if the
lookup succeeded, 0 if it returned none. A step that changes FOUND is such a completion, or a released reset. -/
def Obligations.FoundIsWrittenOnlyByLookups : Prop :=
  (∀ s t : State, step s = .next t → t.found ≠ s.found →
    (s.nextTurn.1 = .block ∧ s.busy = true ∧ s.inReset = false ∧ t.err = .ok ∧
      ∃ i ∈ [Instr.lkcode, .lkname, .valid], decode s.cmdLatch = .ok i) ∨
    (s.nextTurn.1 = .releaseReset ∧ s.inReset = true)) ∧
  ∀ (i : Instr) (s t : State), exec i s = .next t →
    (i ∉ [.lkcode, .lkname, .valid] ∨ t.err ≠ .ok → t.found = s.found) ∧
    (t.err = .ok → i = .lkcode ∨ i = .valid → (t.found = true ↔ ∃ h : HashId, s.value = h.code)) ∧
    (t.err = .ok → i = .lkname →
      (t.found = true ↔ ∃ p ∈ s.config.nameTable, s.window = p.1.map some))

-- ---- Buffer command ----

/-- 44_buffer.md R200, OUT2IN, once the pointer check has passed: the output bytes become the input window, IBUF past
them and all of OBUF stay; the model fault at the first unwritten byte. -/
def Obligations.Out2inOutcomes : Prop :=
  decode 0x09#32 = .ok .out2in ∧
  (∀ s : State, s.pointersOk = false → exec .out2in s = .next { s with err := .badPointers }) ∧
  ∀ s : State, s.pointersOk = true →
    (∀ bs : List Byte, s.output = bs.map some →
      ∃ t, exec .out2in s = .next t ∧
        t = { s with ibuf := t.ibuf, inPtr := 0, inLen := s.outLen, outLen := 0, err := .ok } ∧
        (∀ k (h : k < bs.length), t.ibuf.read k = some bs[k]) ∧
        (∀ a, s.outLen.toNat ≤ a → t.ibuf.read a = s.ibuf.read a) ∧ ∀ a, t.obuf.read a = s.obuf.read a) ∧
    (∀ (bs : List Byte) (rest : List (Option Byte)), s.output = bs.map some ++ none :: rest →
      exec .out2in s = .fault (.uninitRead .obuf bs.length))

/-- The frame of OUT2IN: IBUF, IN_PTR, IN_LEN, OUT_LEN and ERR are all that can change, OBUF nowhere (30_encoding.md
section 1); IBUF only below OUT_LEN (44_buffer.md R200). -/
def Obligations.Out2inFrame : Prop :=
  ∀ s t : State, exec .out2in s = .next t →
    t = { s with ibuf := t.ibuf, inPtr := t.inPtr, inLen := t.inLen, outLen := t.outLen, err := t.err } ∧
    (∀ a, s.outLen.toNat ≤ a → t.ibuf.read a = s.ibuf.read a) ∧ ∀ a, t.obuf.read a = s.obuf.read a

-- ---- The host bus ----

/-- 20_memory.md R54 (with R52, R53, R55): an access is admitted exactly when it is 4 bytes at a register offset, or
naturally aligned inside a window below BUF_CAP; every other is a bus error that changes nothing. -/
def Obligations.AccessIsAdmittedOrBusError : Prop :=
  ∀ (s : State) (off : Nat) (n : Size) (w : Word), s.inReset = false →
    (admittedOffset s.config.bufCap.toNat off n →
      (s.access (.read (s.config.base + off) n)).2 ≠ .busError ∧
      (s.access (.write (s.config.base + off) n w)).2 ≠ .busError) ∧
    (¬admittedOffset s.config.bufCap.toNat off n →
      s.access (.read (s.config.base + off) n) = (s, .busError) ∧
      s.access (.write (s.config.base + off) n w) = (s, .busError))

/-- An admitted access to a buffer while BUSY = 0 (20_memory.md section 2): a write stores each byte of the word in its
own place and changes no other byte; a read returns each byte in its own lane, whatever byte an unwritten one reads as,
and changes nothing (the model's count of free bytes apart). The zeros above the bytes of a narrow read are the model's
choice (log 7). -/
def Obligations.BufferAccessIsLittleEndian : Prop :=
  ∀ (s : State) (b : Buffer) (i : Nat) (n : Size) (w : Word), s.inReset = false → s.busy = false →
    i % n.bytes = 0 → i + n.bytes ≤ s.config.bufCap.toNat →
    (∃ t, s.access (.write (s.config.base + b.window + i) n w) = (t, .done) ∧
      t = s.setBuffer b (t.buffer b) ∧
      (∀ k, k < n.bytes → (t.buffer b).read (i + k) = some (w.extractLsb' (8 * k) 8)) ∧
      ∀ a, a < i ∨ i + n.bytes ≤ a → (t.buffer b).read a = (s.buffer b).read a) ∧
    (∃ t v, s.access (.read (s.config.base + b.window + i) n) = (t, .data v) ∧ t = { s with draws := t.draws } ∧
      (∀ k, k < n.bytes → ∀ x, (s.buffer b).read (i + k) = some x → v.extractLsb' (8 * k) 8 = x) ∧
      v.toNat < 256 ^ n.bytes)

/-- 10_state.md R28 and R251 of 70_reset_and_hazards.md: an admitted write while BUSY = 1 sets OVR and is otherwise
ignored; no command reads or writes OVR; and in a step OVR falls only by a released reset or by a host write of STATUS with
bit 3 set while BUSY = 0. -/
def Obligations.OvrIsSticky : Prop :=
  (∀ (s : State) (off : Nat) (n : Size) (w : Word), s.busy = true → s.inReset = false →
    admittedOffset s.config.bufCap.toNat off n →
    (s.access (.write (s.config.base + off) n w)).1 = { s with ovr := true }) ∧
  (∀ (i : Instr) (s : State) (o : Bool),
    exec i { s with ovr := o } = onNext (fun t => { t with ovr := o }) (exec i s)) ∧
  (∀ s t : State, step s = .next t → s.ovr = true → t.ovr = false →
    (s.nextTurn.1 = .releaseReset ∧ s.inReset = true) ∨
    (s.nextTurn.1 = .host ∧ s.busy = false ∧ s.inReset = false ∧ ∃ rest w,
      s.host.queue = .write (s.config.base + 0x0C) .four w :: rest ∧ w.getLsbD 3 = true))

/-- 10_state.md R24: the fields of STATUS as a host reads it, and what a host write to STATUS does while BUSY = 0. -/
def Obligations.StatusFieldsAndClear : Prop :=
  ∀ (s : State) (w : Word), s.inReset = false →
    s.access (.read (s.config.base + 0x0C) .four) = (s, .data s.statusWord) ∧
    s.statusWord.getLsbD 0 = s.busy ∧ s.statusWord.getLsbD 1 = s.done ∧ s.statusWord.getLsbD 2 = s.found ∧
    s.statusWord.getLsbD 3 = s.ovr ∧ s.statusWord.extractLsb' 4 4 = 0 ∧
    s.statusWord.extractLsb' 8 4 = s.err.code ∧ s.statusWord.extractLsb' 12 20 = 0 ∧
    (∀ c, (State.resetWith c).statusWord = 0) ∧
    (s.busy = false → s.access (.write (s.config.base + 0x0C) .four w) =
      ({ s with ovr := s.ovr && !w.getLsbD 3 }, .done))

/-- 10_state.md R21 and R22: ID and CAP as a host reads them while BUSY = 0, and that writes to them are ignored. -/
def Obligations.IdAndCapRead : Prop :=
  ∀ (s : State) (w : Word), s.inReset = false → s.busy = false →
    s.access (.read s.config.base .four) = (s, .data 0x4D480100) ∧
    (∃ v, s.access (.read (s.config.base + 0x04) .four) = (s, .data v) ∧ v.extractLsb' 0 16 = s.config.bufCap ∧
      v.extractLsb' 16 8 = 10 ∧ v.extractLsb' 24 8 = 0) ∧
    s.access (.write s.config.base .four w) = (s, .done) ∧
    s.access (.write (s.config.base + 0x04) .four w) = (s, .done)

/-- 10_state.md R41: a write to a read-only register is ignored and no error, a read of CMD returns 0, and a read of any
register changes nothing (the model's count of free bytes, which counts reads while BUSY = 1, apart). -/
def Obligations.ReadOnlyRegistersIgnoreWrites : Prop :=
  ∀ (s : State) (w : Word), s.inReset = false →
    (s.busy = false → ∀ r ∈ [Reg.ident, .cap, .count, .funcId, .funcCodeLo, .funcCodeHi],
      s.access (.write (s.config.base + r.offset) .four w) = (s, .done)) ∧
    (s.busy = false → s.access (.read (s.config.base + 0x08) .four) = (s, .data 0)) ∧
    (∀ r : Reg, (s.access (.read (s.config.base + r.offset) .four)).1 =
      { s with draws := (s.access (.read (s.config.base + r.offset) .four)).1.draws })

/-- The halves of VALUE (10_state.md section 3, 70_reset_and_hazards.md section 3): each is read and written alone, and a
write to one leaves the other. -/
def Obligations.ValueIsWrittenByHalves : Prop :=
  ∀ (s : State) (w : Word), s.inReset = false → s.busy = false →
    (∃ t, s.access (.write (s.config.base + 0x10) .four w) = (t, .done) ∧ t = { s with value := t.value } ∧
      t.value.extractLsb' 0 32 = w ∧ t.value.extractLsb' 32 32 = s.value.extractLsb' 32 32) ∧
    (∃ t, s.access (.write (s.config.base + 0x14) .four w) = (t, .done) ∧ t = { s with value := t.value } ∧
      t.value.extractLsb' 32 32 = w ∧ t.value.extractLsb' 0 32 = s.value.extractLsb' 0 32) ∧
    s.access (.read (s.config.base + 0x10) .four) = (s, .data (s.value.extractLsb' 0 32)) ∧
    s.access (.read (s.config.base + 0x14) .four) = (s, .data (s.value.extractLsb' 32 32))

/-- The length registers (10_state.md section 3): a host write takes the low 16 bits, whatever they are, and a read shows
them with zeros above. -/
def Obligations.LengthRegistersTakeSixteenBits : Prop :=
  ∀ (s : State) (w : Word), s.inReset = false → s.busy = false →
    s.access (.write (s.config.base + 0x1C) .four w) = ({ s with inPtr := w.extractLsb' 0 16 }, .done) ∧
    s.access (.write (s.config.base + 0x20) .four w) = ({ s with inLen := w.extractLsb' 0 16 }, .done) ∧
    s.access (.write (s.config.base + 0x24) .four w) = ({ s with outLen := w.extractLsb' 0 16 }, .done) ∧
    s.access (.read (s.config.base + 0x1C) .four) = (s, .data ((0 : Half) ++ s.inPtr)) ∧
    s.access (.read (s.config.base + 0x20) .four) = (s, .data ((0 : Half) ++ s.inLen)) ∧
    s.access (.read (s.config.base + 0x24) .four) = (s, .data ((0 : Half) ++ s.outLen))

/-- The result registers (10_state.md section 3): COUNT, FUNC_ID with zeros above its 5 bits, and the halves of
FUNC_CODE, as a host reads them while BUSY = 0. -/
def Obligations.ResultRegistersRead : Prop :=
  ∀ s : State, s.inReset = false → s.busy = false →
    s.access (.read (s.config.base + 0x18) .four) = (s, .data s.count) ∧
    s.access (.read (s.config.base + 0x28) .four) = (s, .data ((0 : BitVec 27) ++ s.funcId)) ∧
    s.access (.read (s.config.base + 0x2C) .four) = (s, .data (s.funcCode.extractLsb' 0 32)) ∧
    s.access (.read (s.config.base + 0x30) .four) = (s, .data (s.funcCode.extractLsb' 32 32))

/-- A read while BUSY = 1 of anything but STATUS tells nothing of the block (70_reset_and_hazards.md section 3): two
machines with the same parameters give the same answer, whatever their registers and buffers hold. It speaks of the free
values of log 6 only through their equality. -/
def Obligations.BusyReadsTellNothing : Prop :=
  ∀ (s u : State) (addr : Nat) (n : Size), s.busy = true → u.busy = true → s.config = u.config →
    s.inReset = u.inReset → s.draws = u.draws → addr ≠ s.config.base + 0x0C →
    (s.access (.read addr n)).2 = (u.access (.read addr n)).2

/-- Every read is free of side effects (20_memory.md section 3): it changes nothing but the model's count of free bytes. -/
def Obligations.ReadsAreFreeOfSideEffects : Prop :=
  ∀ (s : State) (addr : Nat) (n : Size),
    (s.access (.read addr n)).1 = { s with draws := (s.access (.read addr n)).1.draws }

/-- 10_state.md R25: BUSY is set by the acceptance of a CMD write and cleared by the completion of that command; it is 0
after reset. In a step it rises only by the acceptance of a CMD write, which latches the word written, and falls only by
a completion or a reset. DONE goes the other way (section 2): cleared by the acceptance, set by the completion, 0 after
reset; in a step it rises only by a completion, and falls only by an acceptance or a reset. -/
def Obligations.BusyChangesOnlyByAcceptanceOrCompletion : Prop :=
  (∀ c, (State.resetWith c).busy = false ∧ (State.resetWith c).done = false) ∧
  (∀ (s : State) (w : Word), s.inReset = false → s.busy = false →
    (s.access (.write (s.config.base + 0x08) .four w)).1.busy = true ∧
    (s.access (.write (s.config.base + 0x08) .four w)).1.done = false) ∧
  (∀ s t : State, complete s = .next t → t.busy = false ∧ t.done = true) ∧
  ∀ s t : State, step s = .next t →
    (s.busy = false → t.busy = true → s.nextTurn.1 = .host ∧ s.inReset = false ∧ ∃ rest w,
      s.host.queue = .write (s.config.base + 0x08) .four w :: rest ∧ t.cmdLatch = w ∧ t.done = false) ∧
    (s.busy = true → t.busy = false → (s.nextTurn.1 = .block ∧ s.inReset = false ∧ t.done = true) ∨
      (s.nextTurn.1 = .releaseReset ∧ s.inReset = true)) ∧
    (s.done = false → t.done = true →
      s.nextTurn.1 = .block ∧ s.busy = true ∧ s.inReset = false ∧ t.busy = false) ∧
    (s.done = true → t.done = false →
      (s.nextTurn.1 = .host ∧ s.busy = false ∧ s.inReset = false ∧ t.busy = true ∧ ∃ rest w,
        s.host.queue = .write (s.config.base + 0x08) .four w :: rest ∧ t.cmdLatch = w) ∨
      (s.nextTurn.1 = .releaseReset ∧ s.inReset = true))

/-- A host line `cmd` starts the command (30_encoding.md section 6). That it takes two moves of the host, one to line up
the access and one to make it, is the model's choice (log 16), and so is the list of moves (log 2). -/
def Obligations.HostCmdLineStartsCommand : Prop :=
  ∀ (s : State) (i : Instr) (rest : List Turn), s.busy = false → s.inReset = false → s.host.queue = [] →
    s.host.program[s.host.pos]? = some (.cmd i) → s.turns = .host :: .host :: rest →
    ∃ t, Sys2Proof.core.run 2 s = .next t ∧ t.busy = true ∧ t.done = false ∧ decode t.cmdLatch = .ok i ∧
      t.host.pos = s.host.pos + 1 ∧ t.host.queue = [] ∧ t.turns = rest

/-- The host line `wait` (30_encoding.md section 6): its read of STATUS is repeated while BUSY = 1 and is the last when
BUSY = 0; the block is not touched. -/
def Obligations.WaitRepeatsWhileBusy : Prop :=
  ∀ (s : State) (rest : List BusOp), s.inReset = false → s.host.queue = .poll (s.config.base + 0x0C) :: rest →
    s.hostTurn.host.queue = (if s.busy then .poll (s.config.base + 0x0C) :: rest else rest) ∧
    getVar s.hostTurn.host.vars varS = some (.num s.statusWord.toNat) ∧
    s.hostTurn = { s with host := s.hostTurn.host }

/-- A host program can branch on a bus error (20_memory.md section 2): when the last access of a line has been made and
the next line is a conditional goto on a bus error, of that access or of any of the line, two moves take the host to the
label exactly when the access was a bus error, and past the line when it was not. The conditions are the model's choice
(log 4), and so are the count and the list of moves (log 16, log 2). -/
def Obligations.HostBranchesOnBusError : Prop :=
  ∀ (s : State) (op : BusOp) (c : Cond) (l : Ident) (rest : List Turn), (∀ a, op ≠ .poll a) →
    c = .busError ∨ (c = .lineError ∧ s.host.failed = false) → s.host.queue = [op] →
    s.host.program[s.host.pos]? = some (.ifGoto c l) → s.turns = .host :: .host :: rest →
    ∃ t, Sys2Proof.core.run 2 s = .next t ∧ t.host.queue = [] ∧ t.turns = rest ∧
      ((s.access op.access).2 = .busError → t.host.pos = labelPos s.host.program l) ∧
      ((s.access op.access).2 ≠ .busError → t.host.pos = s.host.pos + 1)

-- ---- Reset and invariants ----

/-- 10_state.md R42: what every piece of state holds after reset, on a chip with any parameters. -/
def Obligations.ResetValues : Prop :=
  ∀ c : Config, let s := State.resetWith c
    s.access (.read c.base .four) = (s, .data 0x4D480100) ∧
    s.access (.read (c.base + 0x04) .four) = (s, .data (0x000A0000 ||| c.bufCap.setWidth 32)) ∧
    s.cmdLatch = 0 ∧ s.busy = false ∧ s.done = false ∧ s.found = false ∧ s.ovr = false ∧ s.err = .ok ∧
    ErrCode.code .ok = 0 ∧ s.value = 0 ∧ s.count = 0 ∧ s.inPtr = 0 ∧ s.inLen = 0 ∧ s.outLen = 0 ∧
    s.funcId = 31 ∧ s.funcCode = 0 ∧ (∀ b a, (s.buffer b).read a = none) ∧ s.config = c ∧
    State.reset = State.resetWith Config.default

/-- While reset is asserted the block has no step and every access is a bus error; when it is deasserted the block's state
is at its reset value and a pending command is gone (70_reset_and_hazards.md section 1). That the host, the list of moves
and the counts of free delays and free bytes stay over it is the model's choice (log 10). -/
def Obligations.ResetAbandonsPendingCommand : Prop :=
  ∀ s t : State, s.inReset = true →
    takeTurn .block s = .next s ∧ (∀ addr n, s.access (.read addr n) = (s, .busError)) ∧
    (∀ addr n w, s.access (.write addr n w) = (s, .busError)) ∧
    (takeTurn .releaseReset s = .next t →
      t = { State.resetWith s.config with host := s.host, turns := s.turns, delays := s.delays, draws := s.draws })

/-- The machine after reset meets the invariant (10_state.md section 7). That the default parameters are well formed rests
on the model's BASE = 0 (log 1) and on its reading of "lowercase ASCII" (log 14). -/
def Obligations.ResetMeetsInvariant : Prop :=
  (∀ c : Config, (State.resetWith c).Inv) ∧ State.reset.Inv ∧ Config.default.wf = true

/-- The invariant is kept by every step, from every state that meets it: the buffers stay canonical and inside BUF_CAP
(10_state.md section 4), BUSY and DONE are never both 1, FUNC_ID and FUNC_CODE stay a row of the code table or none, and
COUNT stays in `-BUF_CAP .. 10` (10_state.md sections 2 and 3). -/
def Obligations.StepKeepsInvariant : Prop :=
  ∀ s t : State, s.Inv → step s = .next t → t.Inv

/-- No step changes the parameters: the registry, which reset leaves alone too (10_state.md section 5,
70_reset_and_hazards.md section 1), and BUF_CAP and BASE, which are parameters of the chip (00_scope.md section 4; that
the parameters stand in the state is the model's choice, log 1). Nor does one change the host's program: that it is fixed
once loaded is the model's choice (log 3). -/
def Obligations.StepKeepsParameters : Prop :=
  ∀ s t : State, step s = .next t → t.config = s.config ∧ t.host.program = s.host.program
end

