-- ==== Sys2Proof/Laws/Memory.lean ====
section
/-! SUPPORT. The laws of a buffer: a read after a write gives the value written, a write leaves every other byte, and
every write keeps the canonical form. -/

namespace Sys2Proof.Machine

theorem Memory.read_write_same (m : Memory) (i : Nat) (b : Byte) : (m.write i b).read i = some b := by
  induction m with
  | nil => simp [Memory.write, Memory.read]
  | cons p m ih =>
    obtain ⟨a, c⟩ := p
    by_cases h : i < a
    · simp [Memory.write, Memory.read, h]
    · by_cases h2 : i = a
      · simp [Memory.write, Memory.read, h2]
      · have : a ≠ i := fun e => h2 e.symm
        simp [Memory.write, Memory.read, h, h2, this, ih]

theorem Memory.read_write_other (m : Memory) (i j : Nat) (b : Byte) (h : j ≠ i) :
    (m.write i b).read j = m.read j := by
  induction m with
  | nil => simp [Memory.write, Memory.read, h.symm]
  | cons p m ih =>
    obtain ⟨a, c⟩ := p
    by_cases h1 : i < a
    · simp [Memory.write, Memory.read, h1, h.symm]
    · by_cases h2 : i = a
      · subst h2; simp [Memory.write, Memory.read, h.symm]
      · simp [Memory.write, Memory.read, h1, h2, ih]

theorem Memory.mem_write {m : Memory} {i : Nat} {b : Byte} {p : Host.Cell} (h : p ∈ m.write i b) :
    p = (i, b) ∨ p ∈ m := by
  induction m with
  | nil => simpa [Memory.write] using h
  | cons q m ih =>
    obtain ⟨a, c⟩ := q
    by_cases h1 : i < a
    · simpa [Memory.write, h1] using h
    · by_cases h2 : i = a
      · subst h2
        simp only [Memory.write, lt_irrefl, if_false, if_true, List.mem_cons] at h
        rcases h with h | h
        · exact Or.inl h
        · exact Or.inr (List.mem_cons_of_mem _ h)
      · simp only [Memory.write, h1, h2, if_false, List.mem_cons] at h
        rcases h with h | h
        · right; simp [h]
        · rcases ih h with h | h
          · exact Or.inl h
          · exact Or.inr (List.mem_cons_of_mem _ h)

theorem Memory.wf_write {m : Memory} (i : Nat) (b : Byte) (h : m.wf) : (m.write i b).wf := by
  induction m with
  | nil => simp [Memory.write, Memory.wf]
  | cons p m ih =>
    obtain ⟨a, c⟩ := p
    obtain ⟨ha, hm⟩ := List.pairwise_cons.1 h
    by_cases h1 : i < a
    · simp only [Memory.write, h1, if_true]
      refine List.pairwise_cons.2 ⟨fun q hq => ?_, h⟩
      rcases List.mem_cons.1 hq with rfl | hq
      · exact h1
      · exact lt_trans h1 (ha q hq)
    · by_cases h2 : i = a
      · subst h2
        simp only [Memory.write, lt_irrefl, if_false, if_true]
        exact List.pairwise_cons.2 ⟨ha, hm⟩
      · simp only [Memory.write, h1, h2, if_false]
        refine List.pairwise_cons.2 ⟨fun q hq => ?_, ih hm⟩
        rcases Memory.mem_write hq with rfl | hq
        · show a < i
          omega
        · exact ha q hq

theorem Memory.within_write {m : Memory} {n i : Nat} (b : Byte) (hi : i < n) (h : m.within n) :
    (m.write i b).within n := by
  intro p hp
  rcases Memory.mem_write hp with rfl | hp
  · exact hi
  · exact h p hp

theorem Memory.wf_writeBytes {m : Memory} (i : Nat) (bs : List Byte) (h : m.wf) : (m.writeBytes i bs).wf := by
  induction bs generalizing m i with
  | nil => exact h
  | cons b bs ih => exact ih _ (Memory.wf_write _ _ h)

theorem Memory.within_writeBytes {m : Memory} {n : Nat} (i : Nat) (bs : List Byte) (hi : i + bs.length ≤ n)
    (h : m.within n) : (m.writeBytes i bs).within n := by
  induction bs generalizing m i with
  | nil => exact h
  | cons b bs ih =>
    simp only [List.length_cons] at hi
    exact ih (i + 1) (by omega) (Memory.within_write _ (by omega) h)

/-- A write of bytes leaves every byte outside them. -/
theorem Memory.read_writeBytes_outside (m : Memory) (i : Nat) (bs : List Byte) (a : Nat)
    (h : a < i ∨ i + bs.length ≤ a) : (m.writeBytes i bs).read a = m.read a := by
  induction bs generalizing m i with
  | nil => rfl
  | cons b bs ih =>
    simp only [List.length_cons] at h
    rw [Memory.writeBytes, ih _ _ (by omega), Memory.read_write_other _ _ _ _ (by omega)]

/-- A read after a write of bytes gives the bytes written. -/
theorem Memory.read_writeBytes_inside (m : Memory) (i : Nat) (bs : List Byte) (k : Nat) (h : k < bs.length) :
    (m.writeBytes i bs).read (i + k) = some bs[k] := by
  induction bs generalizing m i k with
  | nil => simp at h
  | cons b bs ih =>
    cases k with
    | zero =>
      rw [Memory.writeBytes, Memory.read_writeBytes_outside _ _ _ _ (by omega)]
      exact Memory.read_write_same m i b
    | succ k =>
      have := ih (m.write i b) (i + 1) k (by simpa using h)
      rw [Memory.writeBytes]
      simpa [Nat.add_assoc, Nat.add_comm 1 k] using this

theorem Memory.read_none_of_lt {m : Memory} {i : Nat} (h : ∀ p ∈ m, i < p.1) : m.read i = none := by
  induction m with
  | nil => rfl
  | cons p m ih =>
    have hp := h p (by simp)
    rw [Memory.read, if_neg (by omega)]
    exact ih (fun q hq => h q (List.mem_cons_of_mem _ hq))

/-- The canonical form is canonical: two buffers that read the same everywhere are equal. -/
theorem Memory.ext_of_wf {m n : Memory} (hm : m.wf) (hn : n.wf) (h : ∀ i, m.read i = n.read i) : m = n := by
  induction m generalizing n with
  | nil =>
    cases n with
    | nil => rfl
    | cons q n => simpa [Memory.read] using h q.1
  | cons p m ih =>
    obtain ⟨hp, hm'⟩ := List.pairwise_cons.1 hm
    cases n with
    | nil => simpa [Memory.read] using h p.1
    | cons q n =>
      obtain ⟨hq, hn'⟩ := List.pairwise_cons.1 hn
      have key : p.1 = q.1 := by
        rcases lt_trichotomy p.1 q.1 with hlt | heq | hgt
        · have := h p.1
          rw [Memory.read, if_pos rfl, Memory.read, if_neg (by omega),
            Memory.read_none_of_lt (fun r hr => lt_trans hlt (hq r hr))] at this
          cases this
        · exact heq
        · have := h q.1
          rw [Memory.read, if_neg (by omega), Memory.read_none_of_lt (fun r hr => lt_trans hgt (hp r hr)),
            Memory.read, if_pos rfl] at this
          cases this
      have hb : p.2 = q.2 := by
        have := h p.1
        rw [Memory.read, if_pos rfl, Memory.read, if_pos key.symm] at this
        exact Option.some.inj this
      have hpq : p = q := Prod.ext key hb
      subst hpq
      congr 1
      refine ih hm' hn' (fun i => ?_)
      by_cases hi : p.1 = i
      · subst hi
        rw [Memory.read_none_of_lt hp, Memory.read_none_of_lt hq]
      · have := h i
        rwa [Memory.read, if_neg hi, Memory.read, if_neg hi] at this

theorem Memory.length_span (m : Memory) (i n : Nat) : (m.span i n).length = n := by simp [Memory.span]

theorem Memory.getElem?_span (m : Memory) (i n k : Nat) (h : k < n) : (m.span i n)[k]? = some (m.read (i + k)) := by
  simp [Memory.span, h]

/-- The buffers of the machine after reset are canonical. -/
theorem State.reset_buffers_wf : State.reset.ibuf.wf ∧ State.reset.obuf.wf := ⟨List.Pairwise.nil, List.Pairwise.nil⟩

/-- Bytes written read the same whatever was there before. -/
theorem Memory.read_writeBytes_eq (m n : Memory) (i : Nat) (bs : List Byte) (a : Nat) (h1 : i ≤ a)
    (h2 : a < i + bs.length) : (m.writeBytes i bs).read a = (n.writeBytes i bs).read a := by
  obtain ⟨k, rfl⟩ := Nat.exists_eq_add_of_le h1
  rw [Memory.read_writeBytes_inside _ _ _ _ (by omega), Memory.read_writeBytes_inside _ _ _ _ (by omega)]

/-- The bytes written, read back together. -/
theorem Memory.span_writeBytes (m : Memory) (i : Nat) (bs : List Byte) :
    (m.writeBytes i bs).span i bs.length = bs.map some := by
  apply List.ext_getElem
  · simp [Memory.span]
  · intro k h1 h2
    simp only [Memory.span, List.getElem_map, List.getElem_range]
    exact Memory.read_writeBytes_inside _ _ _ _ (by simpa using h2)

/-- What is left of a run of bytes after its first `k`. -/
theorem Memory.drop_span (m : Memory) (i n k : Nat) : (m.span i n).drop k = m.span (i + k) (n - k) := by
  apply List.ext_getElem
  · simp [Memory.span]
  · intro j h1 h2
    simp [Memory.span, Nat.add_assoc]

end Sys2Proof.Machine
end

