-- ==== Sys2Proof/Laws/Operands.lean ====
section
/-! SUPPORT. What reading a whole operand can do, and what the operations every command shares can do: the pointer
check, `settle`, Append. -/

namespace Sys2Proof.Machine

theorem State.length_window (s : State) : s.window.length = s.inLen.toNat - s.inPtr.toNat :=
  Memory.length_span _ _ _

theorem State.length_output (s : State) : s.output.length = s.outLen.toNat := Memory.length_span _ _ _

theorem State.getElem?_window (s : State) (k : Nat) (h : k < s.inLen.toNat - s.inPtr.toNat) :
    s.window[k]? = some (s.ibuf.read (s.inPtr.toNat + k)) := Memory.getElem?_span _ _ _ _ h

theorem State.getElem?_output (s : State) (k : Nat) (h : k < s.outLen.toNat) :
    s.output[k]? = some (s.obuf.read k) := by
  rw [State.output, Memory.getElem?_span _ _ _ _ h, Nat.zero_add]

/-- A sequence is written bytes up to its end, or up to its first byte without a value. -/
theorem written_or_unwritten (l : List (Option Byte)) :
    (∃ bs : List Byte, l = bs.map some) ∨ ∃ (bs : List Byte) (rest : List (Option Byte)), l = bs.map some ++ none :: rest := by
  induction l with
  | nil => exact Or.inl ⟨[], rfl⟩
  | cons o l ih =>
    cases o with
    | none => exact Or.inr ⟨[], l, rfl⟩
    | some b =>
      rcases ih with ⟨bs, rfl⟩ | ⟨bs, rest, rfl⟩
      · exact Or.inl ⟨b :: bs, rfl⟩
      · exact Or.inr ⟨b :: bs, rest, rfl⟩

theorem readAllFrom_written (i : Nat) (bs : List Byte) : readAllFrom i (bs.map some) = .ok bs := by
  induction bs generalizing i with
  | nil => rfl
  | cons b bs ih => simp only [List.map_cons, readAllFrom, ih]

theorem readAllFrom_unwritten (i : Nat) (bs : List Byte) (rest : List (Option Byte)) :
    readAllFrom i (bs.map some ++ none :: rest) = .error (.unwritten (i + bs.length)) := by
  induction bs generalizing i with
  | nil => rfl
  | cons b bs ih =>
    simp only [List.map_cons, List.cons_append, readAllFrom, ih, List.length_cons]
    rw [Nat.add_assoc, Nat.add_comm 1]

theorem readAll_written (bs : List Byte) : readAll (bs.map some) = .ok bs := readAllFrom_written 0 bs

theorem readAll_unwritten (bs : List Byte) (rest : List (Option Byte)) :
    readAll (bs.map some ++ none :: rest) = .error (.unwritten bs.length) := by
  rw [readAll, readAllFrom_unwritten, Nat.zero_add]

theorem State.pointersOk_iff (s : State) :
    s.pointersOk = true ↔ s.inPtr.toNat ≤ s.inLen.toNat ∧ s.inLen.toNat ≤ s.cap ∧ s.outLen.toNat ≤ s.cap := by
  simp [State.pointersOk]

theorem State.checked_ok {s : State} (h : s.pointersOk = true) (r : Result) : s.checked r = r := by
  simp [State.checked, h]

theorem State.checked_bad {s : State} (h : s.pointersOk = false) (r : Result) :
    s.checked r = .next (s.fail .badPointers) := by
  simp [State.checked, h]

/-- All a checked rule can do when it answers a next state. -/
theorem State.checked_next {s t : State} {r : Result} (h : s.checked r = .next t) :
    (s.pointersOk = false ∧ t = s.fail .badPointers) ∨ (s.pointersOk = true ∧ r = .next t) := by
  cases hp : s.pointersOk with
  | false => rw [State.checked_bad hp] at h; cases h; exact Or.inl ⟨rfl, rfl⟩
  | true => rw [State.checked_ok hp] at h; exact Or.inr ⟨rfl, h⟩

/-- All `settle` can do when it answers a next state. -/
theorem State.settle_next {s t : State} {b : Buffer} {i : Nat} {r : Except Stop State}
    (h : s.settle b i r = .next t) : r = .ok t ∨ ∃ e, r = .error (.failed e) ∧ t = s.fail e := by
  match r, h with
  | .ok _, h => cases h; exact Or.inl rfl
  | .error (.failed e), h => cases h; exact Or.inr ⟨e, rfl, rfl⟩
  | .error (.unwritten _), h => cases h

/-- All `settle` can do when it answers a fault. -/
theorem State.settle_fault {s : State} {b : Buffer} {i : Nat} {r : Except Stop State} {f : Fault}
    (h : s.settle b i r = .fault f) : ∃ k, r = .error (.unwritten k) ∧ f = .uninitRead b (i + k) := by
  match r, h with
  | .ok _, h => cases h
  | .error (.failed e), h => cases h
  | .error (.unwritten k), h => cases h; exact ⟨k, rfl, rfl⟩

theorem State.settle_not_refused {s : State} {b : Buffer} {i : Nat} {r : Except Stop State} {e : Refusal} :
    s.settle b i r ≠ .refused e := by
  match r with
  | .ok _ => exact fun h => by cases h
  | .error (.failed _) => exact fun h => by cases h
  | .error (.unwritten _) => exact fun h => by cases h

/-- The state an Append that succeeds leaves (40_command_cycle.md R105). -/
def State.appended (s : State) (bs : List Byte) : State :=
  { s with obuf := s.obuf.writeBytes s.outLen.toNat bs, outLen := BitVec.ofNat 16 (s.outLen.toNat + bs.length) }

theorem State.append_fits {s : State} {bs : List Byte} (h : s.outLen.toNat + bs.length ≤ s.cap) :
    s.append bs = .ok (s.appended bs) := by
  simp [State.append, State.appended, Nat.not_lt.2 h]

theorem State.append_overflows {s : State} {bs : List Byte} (h : s.cap < s.outLen.toNat + bs.length) :
    s.append bs = .error (.failed .outputOverflow) := by
  simp [State.append, h]

/-- All an Append can do. -/
theorem State.append_cases (s : State) (bs : List Byte) :
    (s.outLen.toNat + bs.length ≤ s.cap ∧ s.append bs = .ok (s.appended bs)) ∨
      (s.cap < s.outLen.toNat + bs.length ∧ s.append bs = .error (.failed .outputOverflow)) := by
  rcases Nat.lt_or_ge s.cap (s.outLen.toNat + bs.length) with h | h
  · exact Or.inr ⟨h, State.append_overflows h⟩
  · exact Or.inl ⟨h, State.append_fits h⟩

/-- BUF_CAP fits the length registers, so a length that passed the check never wraps (10_state.md R35). -/
theorem State.cap_lt (s : State) : s.cap < 2 ^ 16 := s.config.bufCap.isLt

theorem State.outLen_appended {s : State} {bs : List Byte} (h : s.outLen.toNat + bs.length ≤ s.cap) :
    (s.appended bs).outLen.toNat = s.outLen.toNat + bs.length := by
  have := s.cap_lt
  simp only [State.appended, BitVec.toNat_ofNat]
  exact Nat.mod_eq_of_lt (by omega)

end Sys2Proof.Machine
end

