-- ==== Sys2Proof/Laws/State.lean ====
section
/-! SUPPORT. What each update of a state leaves in each field: one lemma per field per update, true by rfl, so that no
later proof unfolds a record update. The host's updates touch the field `host` alone, and so are stated once as an
equality of all the rest. -/

namespace Sys2Proof.Machine

variable (s : State)


@[simp] theorem State.fail_cmdLatch (e : ErrCode) : (s.fail e).cmdLatch = s.cmdLatch := rfl
@[simp] theorem State.fail_busy (e : ErrCode) : (s.fail e).busy = s.busy := rfl
@[simp] theorem State.fail_done (e : ErrCode) : (s.fail e).done = s.done := rfl
@[simp] theorem State.fail_found (e : ErrCode) : (s.fail e).found = s.found := rfl
@[simp] theorem State.fail_ovr (e : ErrCode) : (s.fail e).ovr = s.ovr := rfl
@[simp] theorem State.fail_err (e : ErrCode) : (s.fail e).err = e := rfl
@[simp] theorem State.fail_value (e : ErrCode) : (s.fail e).value = s.value := rfl
@[simp] theorem State.fail_count (e : ErrCode) : (s.fail e).count = s.count := rfl
@[simp] theorem State.fail_inPtr (e : ErrCode) : (s.fail e).inPtr = s.inPtr := rfl
@[simp] theorem State.fail_inLen (e : ErrCode) : (s.fail e).inLen = s.inLen := rfl
@[simp] theorem State.fail_outLen (e : ErrCode) : (s.fail e).outLen = s.outLen := rfl
@[simp] theorem State.fail_funcId (e : ErrCode) : (s.fail e).funcId = s.funcId := rfl
@[simp] theorem State.fail_funcCode (e : ErrCode) : (s.fail e).funcCode = s.funcCode := rfl
@[simp] theorem State.fail_ibuf (e : ErrCode) : (s.fail e).ibuf = s.ibuf := rfl
@[simp] theorem State.fail_obuf (e : ErrCode) : (s.fail e).obuf = s.obuf := rfl
@[simp] theorem State.fail_inReset (e : ErrCode) : (s.fail e).inReset = s.inReset := rfl
@[simp] theorem State.fail_config (e : ErrCode) : (s.fail e).config = s.config := rfl
@[simp] theorem State.fail_host (e : ErrCode) : (s.fail e).host = s.host := rfl
@[simp] theorem State.fail_turns (e : ErrCode) : (s.fail e).turns = s.turns := rfl
@[simp] theorem State.fail_delays (e : ErrCode) : (s.fail e).delays = s.delays := rfl
@[simp] theorem State.fail_draws (e : ErrCode) : (s.fail e).draws = s.draws := rfl

@[simp] theorem State.succeed_cmdLatch : (s.succeed).cmdLatch = s.cmdLatch := rfl
@[simp] theorem State.succeed_busy : (s.succeed).busy = s.busy := rfl
@[simp] theorem State.succeed_done : (s.succeed).done = s.done := rfl
@[simp] theorem State.succeed_found : (s.succeed).found = s.found := rfl
@[simp] theorem State.succeed_ovr : (s.succeed).ovr = s.ovr := rfl
@[simp] theorem State.succeed_err : (s.succeed).err = .ok := rfl
@[simp] theorem State.succeed_value : (s.succeed).value = s.value := rfl
@[simp] theorem State.succeed_count : (s.succeed).count = s.count := rfl
@[simp] theorem State.succeed_inPtr : (s.succeed).inPtr = s.inPtr := rfl
@[simp] theorem State.succeed_inLen : (s.succeed).inLen = s.inLen := rfl
@[simp] theorem State.succeed_outLen : (s.succeed).outLen = s.outLen := rfl
@[simp] theorem State.succeed_funcId : (s.succeed).funcId = s.funcId := rfl
@[simp] theorem State.succeed_funcCode : (s.succeed).funcCode = s.funcCode := rfl
@[simp] theorem State.succeed_ibuf : (s.succeed).ibuf = s.ibuf := rfl
@[simp] theorem State.succeed_obuf : (s.succeed).obuf = s.obuf := rfl
@[simp] theorem State.succeed_inReset : (s.succeed).inReset = s.inReset := rfl
@[simp] theorem State.succeed_config : (s.succeed).config = s.config := rfl
@[simp] theorem State.succeed_host : (s.succeed).host = s.host := rfl
@[simp] theorem State.succeed_turns : (s.succeed).turns = s.turns := rfl
@[simp] theorem State.succeed_delays : (s.succeed).delays = s.delays := rfl
@[simp] theorem State.succeed_draws : (s.succeed).draws = s.draws := rfl

@[simp] theorem State.accept_cmdLatch (w : Word) : (s.accept w).cmdLatch = w := rfl
@[simp] theorem State.accept_busy (w : Word) : (s.accept w).busy = true := rfl
@[simp] theorem State.accept_done (w : Word) : (s.accept w).done = false := rfl
@[simp] theorem State.accept_found (w : Word) : (s.accept w).found = s.found := rfl
@[simp] theorem State.accept_ovr (w : Word) : (s.accept w).ovr = s.ovr := rfl
@[simp] theorem State.accept_err (w : Word) : (s.accept w).err = s.err := rfl
@[simp] theorem State.accept_value (w : Word) : (s.accept w).value = s.value := rfl
@[simp] theorem State.accept_count (w : Word) : (s.accept w).count = s.count := rfl
@[simp] theorem State.accept_inPtr (w : Word) : (s.accept w).inPtr = s.inPtr := rfl
@[simp] theorem State.accept_inLen (w : Word) : (s.accept w).inLen = s.inLen := rfl
@[simp] theorem State.accept_outLen (w : Word) : (s.accept w).outLen = s.outLen := rfl
@[simp] theorem State.accept_funcId (w : Word) : (s.accept w).funcId = s.funcId := rfl
@[simp] theorem State.accept_funcCode (w : Word) : (s.accept w).funcCode = s.funcCode := rfl
@[simp] theorem State.accept_ibuf (w : Word) : (s.accept w).ibuf = s.ibuf := rfl
@[simp] theorem State.accept_obuf (w : Word) : (s.accept w).obuf = s.obuf := rfl
@[simp] theorem State.accept_inReset (w : Word) : (s.accept w).inReset = s.inReset := rfl
@[simp] theorem State.accept_config (w : Word) : (s.accept w).config = s.config := rfl
@[simp] theorem State.accept_host (w : Word) : (s.accept w).host = s.host := rfl
@[simp] theorem State.accept_turns (w : Word) : (s.accept w).turns = s.turns := rfl
@[simp] theorem State.accept_delays (w : Word) : (s.accept w).delays = s.delays := rfl
@[simp] theorem State.accept_draws (w : Word) : (s.accept w).draws = s.draws := rfl

@[simp] theorem State.completed_cmdLatch : (s.completed).cmdLatch = s.cmdLatch := rfl
@[simp] theorem State.completed_busy : (s.completed).busy = false := rfl
@[simp] theorem State.completed_done : (s.completed).done = true := rfl
@[simp] theorem State.completed_found : (s.completed).found = s.found := rfl
@[simp] theorem State.completed_ovr : (s.completed).ovr = s.ovr := rfl
@[simp] theorem State.completed_err : (s.completed).err = s.err := rfl
@[simp] theorem State.completed_value : (s.completed).value = s.value := rfl
@[simp] theorem State.completed_count : (s.completed).count = s.count := rfl
@[simp] theorem State.completed_inPtr : (s.completed).inPtr = s.inPtr := rfl
@[simp] theorem State.completed_inLen : (s.completed).inLen = s.inLen := rfl
@[simp] theorem State.completed_outLen : (s.completed).outLen = s.outLen := rfl
@[simp] theorem State.completed_funcId : (s.completed).funcId = s.funcId := rfl
@[simp] theorem State.completed_funcCode : (s.completed).funcCode = s.funcCode := rfl
@[simp] theorem State.completed_ibuf : (s.completed).ibuf = s.ibuf := rfl
@[simp] theorem State.completed_obuf : (s.completed).obuf = s.obuf := rfl
@[simp] theorem State.completed_inReset : (s.completed).inReset = s.inReset := rfl
@[simp] theorem State.completed_config : (s.completed).config = s.config := rfl
@[simp] theorem State.completed_host : (s.completed).host = s.host := rfl
@[simp] theorem State.completed_turns : (s.completed).turns = s.turns := rfl
@[simp] theorem State.completed_delays : (s.completed).delays = s.delays := rfl
@[simp] theorem State.completed_draws : (s.completed).draws = s.draws := rfl

@[simp] theorem State.setDecoded_cmdLatch (v : DWord) (c : Int) : (s.setDecoded v c).cmdLatch = s.cmdLatch := rfl
@[simp] theorem State.setDecoded_busy (v : DWord) (c : Int) : (s.setDecoded v c).busy = s.busy := rfl
@[simp] theorem State.setDecoded_done (v : DWord) (c : Int) : (s.setDecoded v c).done = s.done := rfl
@[simp] theorem State.setDecoded_found (v : DWord) (c : Int) : (s.setDecoded v c).found = s.found := rfl
@[simp] theorem State.setDecoded_ovr (v : DWord) (c : Int) : (s.setDecoded v c).ovr = s.ovr := rfl
@[simp] theorem State.setDecoded_err (v : DWord) (c : Int) : (s.setDecoded v c).err = s.err := rfl
@[simp] theorem State.setDecoded_value (v : DWord) (c : Int) : (s.setDecoded v c).value = v := rfl
@[simp] theorem State.setDecoded_count (v : DWord) (c : Int) : (s.setDecoded v c).count = BitVec.ofInt 32 c := rfl
@[simp] theorem State.setDecoded_inPtr (v : DWord) (c : Int) : (s.setDecoded v c).inPtr = s.inPtr := rfl
@[simp] theorem State.setDecoded_inLen (v : DWord) (c : Int) : (s.setDecoded v c).inLen = s.inLen := rfl
@[simp] theorem State.setDecoded_outLen (v : DWord) (c : Int) : (s.setDecoded v c).outLen = s.outLen := rfl
@[simp] theorem State.setDecoded_funcId (v : DWord) (c : Int) : (s.setDecoded v c).funcId = s.funcId := rfl
@[simp] theorem State.setDecoded_funcCode (v : DWord) (c : Int) : (s.setDecoded v c).funcCode = s.funcCode := rfl
@[simp] theorem State.setDecoded_ibuf (v : DWord) (c : Int) : (s.setDecoded v c).ibuf = s.ibuf := rfl
@[simp] theorem State.setDecoded_obuf (v : DWord) (c : Int) : (s.setDecoded v c).obuf = s.obuf := rfl
@[simp] theorem State.setDecoded_inReset (v : DWord) (c : Int) : (s.setDecoded v c).inReset = s.inReset := rfl
@[simp] theorem State.setDecoded_config (v : DWord) (c : Int) : (s.setDecoded v c).config = s.config := rfl
@[simp] theorem State.setDecoded_host (v : DWord) (c : Int) : (s.setDecoded v c).host = s.host := rfl
@[simp] theorem State.setDecoded_turns (v : DWord) (c : Int) : (s.setDecoded v c).turns = s.turns := rfl
@[simp] theorem State.setDecoded_delays (v : DWord) (c : Int) : (s.setDecoded v c).delays = s.delays := rfl
@[simp] theorem State.setDecoded_draws (v : DWord) (c : Int) : (s.setDecoded v c).draws = s.draws := rfl

@[simp] theorem State.advanceInput_cmdLatch (n : Nat) : (s.advanceInput n).cmdLatch = s.cmdLatch := rfl
@[simp] theorem State.advanceInput_busy (n : Nat) : (s.advanceInput n).busy = s.busy := rfl
@[simp] theorem State.advanceInput_done (n : Nat) : (s.advanceInput n).done = s.done := rfl
@[simp] theorem State.advanceInput_found (n : Nat) : (s.advanceInput n).found = s.found := rfl
@[simp] theorem State.advanceInput_ovr (n : Nat) : (s.advanceInput n).ovr = s.ovr := rfl
@[simp] theorem State.advanceInput_err (n : Nat) : (s.advanceInput n).err = s.err := rfl
@[simp] theorem State.advanceInput_value (n : Nat) : (s.advanceInput n).value = s.value := rfl
@[simp] theorem State.advanceInput_count (n : Nat) : (s.advanceInput n).count = s.count := rfl
@[simp] theorem State.advanceInput_inPtr (n : Nat) : (s.advanceInput n).inPtr = BitVec.ofNat 16 (s.inPtr.toNat + n) := rfl
@[simp] theorem State.advanceInput_inLen (n : Nat) : (s.advanceInput n).inLen = s.inLen := rfl
@[simp] theorem State.advanceInput_outLen (n : Nat) : (s.advanceInput n).outLen = s.outLen := rfl
@[simp] theorem State.advanceInput_funcId (n : Nat) : (s.advanceInput n).funcId = s.funcId := rfl
@[simp] theorem State.advanceInput_funcCode (n : Nat) : (s.advanceInput n).funcCode = s.funcCode := rfl
@[simp] theorem State.advanceInput_ibuf (n : Nat) : (s.advanceInput n).ibuf = s.ibuf := rfl
@[simp] theorem State.advanceInput_obuf (n : Nat) : (s.advanceInput n).obuf = s.obuf := rfl
@[simp] theorem State.advanceInput_inReset (n : Nat) : (s.advanceInput n).inReset = s.inReset := rfl
@[simp] theorem State.advanceInput_config (n : Nat) : (s.advanceInput n).config = s.config := rfl
@[simp] theorem State.advanceInput_host (n : Nat) : (s.advanceInput n).host = s.host := rfl
@[simp] theorem State.advanceInput_turns (n : Nat) : (s.advanceInput n).turns = s.turns := rfl
@[simp] theorem State.advanceInput_delays (n : Nat) : (s.advanceInput n).delays = s.delays := rfl
@[simp] theorem State.advanceInput_draws (n : Nat) : (s.advanceInput n).draws = s.draws := rfl

@[simp] theorem State.consumeInput_cmdLatch : (s.consumeInput).cmdLatch = s.cmdLatch := rfl
@[simp] theorem State.consumeInput_busy : (s.consumeInput).busy = s.busy := rfl
@[simp] theorem State.consumeInput_done : (s.consumeInput).done = s.done := rfl
@[simp] theorem State.consumeInput_found : (s.consumeInput).found = s.found := rfl
@[simp] theorem State.consumeInput_ovr : (s.consumeInput).ovr = s.ovr := rfl
@[simp] theorem State.consumeInput_err : (s.consumeInput).err = s.err := rfl
@[simp] theorem State.consumeInput_value : (s.consumeInput).value = s.value := rfl
@[simp] theorem State.consumeInput_count : (s.consumeInput).count = s.count := rfl
@[simp] theorem State.consumeInput_inPtr : (s.consumeInput).inPtr = s.inLen := rfl
@[simp] theorem State.consumeInput_inLen : (s.consumeInput).inLen = s.inLen := rfl
@[simp] theorem State.consumeInput_outLen : (s.consumeInput).outLen = s.outLen := rfl
@[simp] theorem State.consumeInput_funcId : (s.consumeInput).funcId = s.funcId := rfl
@[simp] theorem State.consumeInput_funcCode : (s.consumeInput).funcCode = s.funcCode := rfl
@[simp] theorem State.consumeInput_ibuf : (s.consumeInput).ibuf = s.ibuf := rfl
@[simp] theorem State.consumeInput_obuf : (s.consumeInput).obuf = s.obuf := rfl
@[simp] theorem State.consumeInput_inReset : (s.consumeInput).inReset = s.inReset := rfl
@[simp] theorem State.consumeInput_config : (s.consumeInput).config = s.config := rfl
@[simp] theorem State.consumeInput_host : (s.consumeInput).host = s.host := rfl
@[simp] theorem State.consumeInput_turns : (s.consumeInput).turns = s.turns := rfl
@[simp] theorem State.consumeInput_delays : (s.consumeInput).delays = s.delays := rfl
@[simp] theorem State.consumeInput_draws : (s.consumeInput).draws = s.draws := rfl

@[simp] theorem State.setFound_cmdLatch (b : Bool) : (s.setFound b).cmdLatch = s.cmdLatch := rfl
@[simp] theorem State.setFound_busy (b : Bool) : (s.setFound b).busy = s.busy := rfl
@[simp] theorem State.setFound_done (b : Bool) : (s.setFound b).done = s.done := rfl
@[simp] theorem State.setFound_found (b : Bool) : (s.setFound b).found = b := rfl
@[simp] theorem State.setFound_ovr (b : Bool) : (s.setFound b).ovr = s.ovr := rfl
@[simp] theorem State.setFound_err (b : Bool) : (s.setFound b).err = s.err := rfl
@[simp] theorem State.setFound_value (b : Bool) : (s.setFound b).value = s.value := rfl
@[simp] theorem State.setFound_count (b : Bool) : (s.setFound b).count = s.count := rfl
@[simp] theorem State.setFound_inPtr (b : Bool) : (s.setFound b).inPtr = s.inPtr := rfl
@[simp] theorem State.setFound_inLen (b : Bool) : (s.setFound b).inLen = s.inLen := rfl
@[simp] theorem State.setFound_outLen (b : Bool) : (s.setFound b).outLen = s.outLen := rfl
@[simp] theorem State.setFound_funcId (b : Bool) : (s.setFound b).funcId = s.funcId := rfl
@[simp] theorem State.setFound_funcCode (b : Bool) : (s.setFound b).funcCode = s.funcCode := rfl
@[simp] theorem State.setFound_ibuf (b : Bool) : (s.setFound b).ibuf = s.ibuf := rfl
@[simp] theorem State.setFound_obuf (b : Bool) : (s.setFound b).obuf = s.obuf := rfl
@[simp] theorem State.setFound_inReset (b : Bool) : (s.setFound b).inReset = s.inReset := rfl
@[simp] theorem State.setFound_config (b : Bool) : (s.setFound b).config = s.config := rfl
@[simp] theorem State.setFound_host (b : Bool) : (s.setFound b).host = s.host := rfl
@[simp] theorem State.setFound_turns (b : Bool) : (s.setFound b).turns = s.turns := rfl
@[simp] theorem State.setFound_delays (b : Bool) : (s.setFound b).delays = s.delays := rfl
@[simp] theorem State.setFound_draws (b : Bool) : (s.setFound b).draws = s.draws := rfl

@[simp] theorem State.moveToInput_cmdLatch (bs : List Byte) : (s.moveToInput bs).cmdLatch = s.cmdLatch := rfl
@[simp] theorem State.moveToInput_busy (bs : List Byte) : (s.moveToInput bs).busy = s.busy := rfl
@[simp] theorem State.moveToInput_done (bs : List Byte) : (s.moveToInput bs).done = s.done := rfl
@[simp] theorem State.moveToInput_found (bs : List Byte) : (s.moveToInput bs).found = s.found := rfl
@[simp] theorem State.moveToInput_ovr (bs : List Byte) : (s.moveToInput bs).ovr = s.ovr := rfl
@[simp] theorem State.moveToInput_err (bs : List Byte) : (s.moveToInput bs).err = s.err := rfl
@[simp] theorem State.moveToInput_value (bs : List Byte) : (s.moveToInput bs).value = s.value := rfl
@[simp] theorem State.moveToInput_count (bs : List Byte) : (s.moveToInput bs).count = s.count := rfl
@[simp] theorem State.moveToInput_inPtr (bs : List Byte) : (s.moveToInput bs).inPtr = 0 := rfl
@[simp] theorem State.moveToInput_inLen (bs : List Byte) : (s.moveToInput bs).inLen = s.outLen := rfl
@[simp] theorem State.moveToInput_outLen (bs : List Byte) : (s.moveToInput bs).outLen = 0 := rfl
@[simp] theorem State.moveToInput_funcId (bs : List Byte) : (s.moveToInput bs).funcId = s.funcId := rfl
@[simp] theorem State.moveToInput_funcCode (bs : List Byte) : (s.moveToInput bs).funcCode = s.funcCode := rfl
@[simp] theorem State.moveToInput_ibuf (bs : List Byte) : (s.moveToInput bs).ibuf = s.ibuf.writeBytes 0 bs := rfl
@[simp] theorem State.moveToInput_obuf (bs : List Byte) : (s.moveToInput bs).obuf = s.obuf := rfl
@[simp] theorem State.moveToInput_inReset (bs : List Byte) : (s.moveToInput bs).inReset = s.inReset := rfl
@[simp] theorem State.moveToInput_config (bs : List Byte) : (s.moveToInput bs).config = s.config := rfl
@[simp] theorem State.moveToInput_host (bs : List Byte) : (s.moveToInput bs).host = s.host := rfl
@[simp] theorem State.moveToInput_turns (bs : List Byte) : (s.moveToInput bs).turns = s.turns := rfl
@[simp] theorem State.moveToInput_delays (bs : List Byte) : (s.moveToInput bs).delays = s.delays := rfl
@[simp] theorem State.moveToInput_draws (bs : List Byte) : (s.moveToInput bs).draws = s.draws := rfl

@[simp] theorem State.clearOvr_cmdLatch (w : Word) : (s.clearOvr w).cmdLatch = s.cmdLatch := rfl
@[simp] theorem State.clearOvr_busy (w : Word) : (s.clearOvr w).busy = s.busy := rfl
@[simp] theorem State.clearOvr_done (w : Word) : (s.clearOvr w).done = s.done := rfl
@[simp] theorem State.clearOvr_found (w : Word) : (s.clearOvr w).found = s.found := rfl
@[simp] theorem State.clearOvr_ovr (w : Word) : (s.clearOvr w).ovr = (s.ovr && !w.getLsbD 3) := rfl
@[simp] theorem State.clearOvr_err (w : Word) : (s.clearOvr w).err = s.err := rfl
@[simp] theorem State.clearOvr_value (w : Word) : (s.clearOvr w).value = s.value := rfl
@[simp] theorem State.clearOvr_count (w : Word) : (s.clearOvr w).count = s.count := rfl
@[simp] theorem State.clearOvr_inPtr (w : Word) : (s.clearOvr w).inPtr = s.inPtr := rfl
@[simp] theorem State.clearOvr_inLen (w : Word) : (s.clearOvr w).inLen = s.inLen := rfl
@[simp] theorem State.clearOvr_outLen (w : Word) : (s.clearOvr w).outLen = s.outLen := rfl
@[simp] theorem State.clearOvr_funcId (w : Word) : (s.clearOvr w).funcId = s.funcId := rfl
@[simp] theorem State.clearOvr_funcCode (w : Word) : (s.clearOvr w).funcCode = s.funcCode := rfl
@[simp] theorem State.clearOvr_ibuf (w : Word) : (s.clearOvr w).ibuf = s.ibuf := rfl
@[simp] theorem State.clearOvr_obuf (w : Word) : (s.clearOvr w).obuf = s.obuf := rfl
@[simp] theorem State.clearOvr_inReset (w : Word) : (s.clearOvr w).inReset = s.inReset := rfl
@[simp] theorem State.clearOvr_config (w : Word) : (s.clearOvr w).config = s.config := rfl
@[simp] theorem State.clearOvr_host (w : Word) : (s.clearOvr w).host = s.host := rfl
@[simp] theorem State.clearOvr_turns (w : Word) : (s.clearOvr w).turns = s.turns := rfl
@[simp] theorem State.clearOvr_delays (w : Word) : (s.clearOvr w).delays = s.delays := rfl
@[simp] theorem State.clearOvr_draws (w : Word) : (s.clearOvr w).draws = s.draws := rfl

@[simp] theorem State.writeOverrun_cmdLatch : (s.writeOverrun).cmdLatch = s.cmdLatch := rfl
@[simp] theorem State.writeOverrun_busy : (s.writeOverrun).busy = s.busy := rfl
@[simp] theorem State.writeOverrun_done : (s.writeOverrun).done = s.done := rfl
@[simp] theorem State.writeOverrun_found : (s.writeOverrun).found = s.found := rfl
@[simp] theorem State.writeOverrun_ovr : (s.writeOverrun).ovr = true := rfl
@[simp] theorem State.writeOverrun_err : (s.writeOverrun).err = s.err := rfl
@[simp] theorem State.writeOverrun_value : (s.writeOverrun).value = s.value := rfl
@[simp] theorem State.writeOverrun_count : (s.writeOverrun).count = s.count := rfl
@[simp] theorem State.writeOverrun_inPtr : (s.writeOverrun).inPtr = s.inPtr := rfl
@[simp] theorem State.writeOverrun_inLen : (s.writeOverrun).inLen = s.inLen := rfl
@[simp] theorem State.writeOverrun_outLen : (s.writeOverrun).outLen = s.outLen := rfl
@[simp] theorem State.writeOverrun_funcId : (s.writeOverrun).funcId = s.funcId := rfl
@[simp] theorem State.writeOverrun_funcCode : (s.writeOverrun).funcCode = s.funcCode := rfl
@[simp] theorem State.writeOverrun_ibuf : (s.writeOverrun).ibuf = s.ibuf := rfl
@[simp] theorem State.writeOverrun_obuf : (s.writeOverrun).obuf = s.obuf := rfl
@[simp] theorem State.writeOverrun_inReset : (s.writeOverrun).inReset = s.inReset := rfl
@[simp] theorem State.writeOverrun_config : (s.writeOverrun).config = s.config := rfl
@[simp] theorem State.writeOverrun_host : (s.writeOverrun).host = s.host := rfl
@[simp] theorem State.writeOverrun_turns : (s.writeOverrun).turns = s.turns := rfl
@[simp] theorem State.writeOverrun_delays : (s.writeOverrun).delays = s.delays := rfl
@[simp] theorem State.writeOverrun_draws : (s.writeOverrun).draws = s.draws := rfl

@[simp] theorem State.drawn_cmdLatch (n : Nat) : (s.drawn n).cmdLatch = s.cmdLatch := rfl
@[simp] theorem State.drawn_busy (n : Nat) : (s.drawn n).busy = s.busy := rfl
@[simp] theorem State.drawn_done (n : Nat) : (s.drawn n).done = s.done := rfl
@[simp] theorem State.drawn_found (n : Nat) : (s.drawn n).found = s.found := rfl
@[simp] theorem State.drawn_ovr (n : Nat) : (s.drawn n).ovr = s.ovr := rfl
@[simp] theorem State.drawn_err (n : Nat) : (s.drawn n).err = s.err := rfl
@[simp] theorem State.drawn_value (n : Nat) : (s.drawn n).value = s.value := rfl
@[simp] theorem State.drawn_count (n : Nat) : (s.drawn n).count = s.count := rfl
@[simp] theorem State.drawn_inPtr (n : Nat) : (s.drawn n).inPtr = s.inPtr := rfl
@[simp] theorem State.drawn_inLen (n : Nat) : (s.drawn n).inLen = s.inLen := rfl
@[simp] theorem State.drawn_outLen (n : Nat) : (s.drawn n).outLen = s.outLen := rfl
@[simp] theorem State.drawn_funcId (n : Nat) : (s.drawn n).funcId = s.funcId := rfl
@[simp] theorem State.drawn_funcCode (n : Nat) : (s.drawn n).funcCode = s.funcCode := rfl
@[simp] theorem State.drawn_ibuf (n : Nat) : (s.drawn n).ibuf = s.ibuf := rfl
@[simp] theorem State.drawn_obuf (n : Nat) : (s.drawn n).obuf = s.obuf := rfl
@[simp] theorem State.drawn_inReset (n : Nat) : (s.drawn n).inReset = s.inReset := rfl
@[simp] theorem State.drawn_config (n : Nat) : (s.drawn n).config = s.config := rfl
@[simp] theorem State.drawn_host (n : Nat) : (s.drawn n).host = s.host := rfl
@[simp] theorem State.drawn_turns (n : Nat) : (s.drawn n).turns = s.turns := rfl
@[simp] theorem State.drawn_delays (n : Nat) : (s.drawn n).delays = s.delays := rfl
@[simp] theorem State.drawn_draws (n : Nat) : (s.drawn n).draws = s.draws + n := rfl

@[simp] theorem State.assertReset_cmdLatch : (s.assertReset).cmdLatch = s.cmdLatch := rfl
@[simp] theorem State.assertReset_busy : (s.assertReset).busy = s.busy := rfl
@[simp] theorem State.assertReset_done : (s.assertReset).done = s.done := rfl
@[simp] theorem State.assertReset_found : (s.assertReset).found = s.found := rfl
@[simp] theorem State.assertReset_ovr : (s.assertReset).ovr = s.ovr := rfl
@[simp] theorem State.assertReset_err : (s.assertReset).err = s.err := rfl
@[simp] theorem State.assertReset_value : (s.assertReset).value = s.value := rfl
@[simp] theorem State.assertReset_count : (s.assertReset).count = s.count := rfl
@[simp] theorem State.assertReset_inPtr : (s.assertReset).inPtr = s.inPtr := rfl
@[simp] theorem State.assertReset_inLen : (s.assertReset).inLen = s.inLen := rfl
@[simp] theorem State.assertReset_outLen : (s.assertReset).outLen = s.outLen := rfl
@[simp] theorem State.assertReset_funcId : (s.assertReset).funcId = s.funcId := rfl
@[simp] theorem State.assertReset_funcCode : (s.assertReset).funcCode = s.funcCode := rfl
@[simp] theorem State.assertReset_ibuf : (s.assertReset).ibuf = s.ibuf := rfl
@[simp] theorem State.assertReset_obuf : (s.assertReset).obuf = s.obuf := rfl
@[simp] theorem State.assertReset_inReset : (s.assertReset).inReset = true := rfl
@[simp] theorem State.assertReset_config : (s.assertReset).config = s.config := rfl
@[simp] theorem State.assertReset_host : (s.assertReset).host = s.host := rfl
@[simp] theorem State.assertReset_turns : (s.assertReset).turns = s.turns := rfl
@[simp] theorem State.assertReset_delays : (s.assertReset).delays = s.delays := rfl
@[simp] theorem State.assertReset_draws : (s.assertReset).draws = s.draws := rfl

@[simp] theorem State.setLookup_cmdLatch (o : Option HashId) : (s.setLookup o).cmdLatch = s.cmdLatch := by cases o <;> rfl
@[simp] theorem State.setLookup_busy (o : Option HashId) : (s.setLookup o).busy = s.busy := by cases o <;> rfl
@[simp] theorem State.setLookup_done (o : Option HashId) : (s.setLookup o).done = s.done := by cases o <;> rfl
@[simp] theorem State.setLookup_ovr (o : Option HashId) : (s.setLookup o).ovr = s.ovr := by cases o <;> rfl
@[simp] theorem State.setLookup_err (o : Option HashId) : (s.setLookup o).err = s.err := by cases o <;> rfl
@[simp] theorem State.setLookup_value (o : Option HashId) : (s.setLookup o).value = s.value := by cases o <;> rfl
@[simp] theorem State.setLookup_count (o : Option HashId) : (s.setLookup o).count = s.count := by cases o <;> rfl
@[simp] theorem State.setLookup_inPtr (o : Option HashId) : (s.setLookup o).inPtr = s.inPtr := by cases o <;> rfl
@[simp] theorem State.setLookup_inLen (o : Option HashId) : (s.setLookup o).inLen = s.inLen := by cases o <;> rfl
@[simp] theorem State.setLookup_outLen (o : Option HashId) : (s.setLookup o).outLen = s.outLen := by cases o <;> rfl
@[simp] theorem State.setLookup_ibuf (o : Option HashId) : (s.setLookup o).ibuf = s.ibuf := by cases o <;> rfl
@[simp] theorem State.setLookup_obuf (o : Option HashId) : (s.setLookup o).obuf = s.obuf := by cases o <;> rfl
@[simp] theorem State.setLookup_inReset (o : Option HashId) : (s.setLookup o).inReset = s.inReset := by cases o <;> rfl
@[simp] theorem State.setLookup_config (o : Option HashId) : (s.setLookup o).config = s.config := by cases o <;> rfl
@[simp] theorem State.setLookup_host (o : Option HashId) : (s.setLookup o).host = s.host := by cases o <;> rfl
@[simp] theorem State.setLookup_turns (o : Option HashId) : (s.setLookup o).turns = s.turns := by cases o <;> rfl
@[simp] theorem State.setLookup_delays (o : Option HashId) : (s.setLookup o).delays = s.delays := by cases o <;> rfl
@[simp] theorem State.setLookup_draws (o : Option HashId) : (s.setLookup o).draws = s.draws := by cases o <;> rfl
@[simp] theorem State.setLookup_found (o : Option HashId) : (s.setLookup o).found = o.isSome := by cases o <;> rfl

@[simp] theorem State.goto_cmdLatch (p : Nat) : (s.goto p).cmdLatch = s.cmdLatch := rfl
@[simp] theorem State.goto_busy (p : Nat) : (s.goto p).busy = s.busy := rfl
@[simp] theorem State.goto_done (p : Nat) : (s.goto p).done = s.done := rfl
@[simp] theorem State.goto_found (p : Nat) : (s.goto p).found = s.found := rfl
@[simp] theorem State.goto_ovr (p : Nat) : (s.goto p).ovr = s.ovr := rfl
@[simp] theorem State.goto_err (p : Nat) : (s.goto p).err = s.err := rfl
@[simp] theorem State.goto_value (p : Nat) : (s.goto p).value = s.value := rfl
@[simp] theorem State.goto_count (p : Nat) : (s.goto p).count = s.count := rfl
@[simp] theorem State.goto_inPtr (p : Nat) : (s.goto p).inPtr = s.inPtr := rfl
@[simp] theorem State.goto_inLen (p : Nat) : (s.goto p).inLen = s.inLen := rfl
@[simp] theorem State.goto_outLen (p : Nat) : (s.goto p).outLen = s.outLen := rfl
@[simp] theorem State.goto_funcId (p : Nat) : (s.goto p).funcId = s.funcId := rfl
@[simp] theorem State.goto_funcCode (p : Nat) : (s.goto p).funcCode = s.funcCode := rfl
@[simp] theorem State.goto_ibuf (p : Nat) : (s.goto p).ibuf = s.ibuf := rfl
@[simp] theorem State.goto_obuf (p : Nat) : (s.goto p).obuf = s.obuf := rfl
@[simp] theorem State.goto_inReset (p : Nat) : (s.goto p).inReset = s.inReset := rfl
@[simp] theorem State.goto_config (p : Nat) : (s.goto p).config = s.config := rfl
@[simp] theorem State.goto_turns (p : Nat) : (s.goto p).turns = s.turns := rfl
@[simp] theorem State.goto_delays (p : Nat) : (s.goto p).delays = s.delays := rfl
@[simp] theorem State.goto_draws (p : Nat) : (s.goto p).draws = s.draws := rfl

@[simp] theorem State.nextLine_cmdLatch : (s.nextLine).cmdLatch = s.cmdLatch := rfl
@[simp] theorem State.nextLine_busy : (s.nextLine).busy = s.busy := rfl
@[simp] theorem State.nextLine_done : (s.nextLine).done = s.done := rfl
@[simp] theorem State.nextLine_found : (s.nextLine).found = s.found := rfl
@[simp] theorem State.nextLine_ovr : (s.nextLine).ovr = s.ovr := rfl
@[simp] theorem State.nextLine_err : (s.nextLine).err = s.err := rfl
@[simp] theorem State.nextLine_value : (s.nextLine).value = s.value := rfl
@[simp] theorem State.nextLine_count : (s.nextLine).count = s.count := rfl
@[simp] theorem State.nextLine_inPtr : (s.nextLine).inPtr = s.inPtr := rfl
@[simp] theorem State.nextLine_inLen : (s.nextLine).inLen = s.inLen := rfl
@[simp] theorem State.nextLine_outLen : (s.nextLine).outLen = s.outLen := rfl
@[simp] theorem State.nextLine_funcId : (s.nextLine).funcId = s.funcId := rfl
@[simp] theorem State.nextLine_funcCode : (s.nextLine).funcCode = s.funcCode := rfl
@[simp] theorem State.nextLine_ibuf : (s.nextLine).ibuf = s.ibuf := rfl
@[simp] theorem State.nextLine_obuf : (s.nextLine).obuf = s.obuf := rfl
@[simp] theorem State.nextLine_inReset : (s.nextLine).inReset = s.inReset := rfl
@[simp] theorem State.nextLine_config : (s.nextLine).config = s.config := rfl
@[simp] theorem State.nextLine_turns : (s.nextLine).turns = s.turns := rfl
@[simp] theorem State.nextLine_delays : (s.nextLine).delays = s.delays := rfl
@[simp] theorem State.nextLine_draws : (s.nextLine).draws = s.draws := rfl

@[simp] theorem State.enqueue_cmdLatch (ops : List BusOp) : (s.enqueue ops).cmdLatch = s.cmdLatch := rfl
@[simp] theorem State.enqueue_busy (ops : List BusOp) : (s.enqueue ops).busy = s.busy := rfl
@[simp] theorem State.enqueue_done (ops : List BusOp) : (s.enqueue ops).done = s.done := rfl
@[simp] theorem State.enqueue_found (ops : List BusOp) : (s.enqueue ops).found = s.found := rfl
@[simp] theorem State.enqueue_ovr (ops : List BusOp) : (s.enqueue ops).ovr = s.ovr := rfl
@[simp] theorem State.enqueue_err (ops : List BusOp) : (s.enqueue ops).err = s.err := rfl
@[simp] theorem State.enqueue_value (ops : List BusOp) : (s.enqueue ops).value = s.value := rfl
@[simp] theorem State.enqueue_count (ops : List BusOp) : (s.enqueue ops).count = s.count := rfl
@[simp] theorem State.enqueue_inPtr (ops : List BusOp) : (s.enqueue ops).inPtr = s.inPtr := rfl
@[simp] theorem State.enqueue_inLen (ops : List BusOp) : (s.enqueue ops).inLen = s.inLen := rfl
@[simp] theorem State.enqueue_outLen (ops : List BusOp) : (s.enqueue ops).outLen = s.outLen := rfl
@[simp] theorem State.enqueue_funcId (ops : List BusOp) : (s.enqueue ops).funcId = s.funcId := rfl
@[simp] theorem State.enqueue_funcCode (ops : List BusOp) : (s.enqueue ops).funcCode = s.funcCode := rfl
@[simp] theorem State.enqueue_ibuf (ops : List BusOp) : (s.enqueue ops).ibuf = s.ibuf := rfl
@[simp] theorem State.enqueue_obuf (ops : List BusOp) : (s.enqueue ops).obuf = s.obuf := rfl
@[simp] theorem State.enqueue_inReset (ops : List BusOp) : (s.enqueue ops).inReset = s.inReset := rfl
@[simp] theorem State.enqueue_config (ops : List BusOp) : (s.enqueue ops).config = s.config := rfl
@[simp] theorem State.enqueue_turns (ops : List BusOp) : (s.enqueue ops).turns = s.turns := rfl
@[simp] theorem State.enqueue_delays (ops : List BusOp) : (s.enqueue ops).delays = s.delays := rfl
@[simp] theorem State.enqueue_draws (ops : List BusOp) : (s.enqueue ops).draws = s.draws := rfl

@[simp] theorem State.lineUp_cmdLatch (ops : List BusOp) : (s.lineUp ops).cmdLatch = s.cmdLatch := rfl
@[simp] theorem State.lineUp_busy (ops : List BusOp) : (s.lineUp ops).busy = s.busy := rfl
@[simp] theorem State.lineUp_done (ops : List BusOp) : (s.lineUp ops).done = s.done := rfl
@[simp] theorem State.lineUp_found (ops : List BusOp) : (s.lineUp ops).found = s.found := rfl
@[simp] theorem State.lineUp_ovr (ops : List BusOp) : (s.lineUp ops).ovr = s.ovr := rfl
@[simp] theorem State.lineUp_err (ops : List BusOp) : (s.lineUp ops).err = s.err := rfl
@[simp] theorem State.lineUp_value (ops : List BusOp) : (s.lineUp ops).value = s.value := rfl
@[simp] theorem State.lineUp_count (ops : List BusOp) : (s.lineUp ops).count = s.count := rfl
@[simp] theorem State.lineUp_inPtr (ops : List BusOp) : (s.lineUp ops).inPtr = s.inPtr := rfl
@[simp] theorem State.lineUp_inLen (ops : List BusOp) : (s.lineUp ops).inLen = s.inLen := rfl
@[simp] theorem State.lineUp_outLen (ops : List BusOp) : (s.lineUp ops).outLen = s.outLen := rfl
@[simp] theorem State.lineUp_funcId (ops : List BusOp) : (s.lineUp ops).funcId = s.funcId := rfl
@[simp] theorem State.lineUp_funcCode (ops : List BusOp) : (s.lineUp ops).funcCode = s.funcCode := rfl
@[simp] theorem State.lineUp_ibuf (ops : List BusOp) : (s.lineUp ops).ibuf = s.ibuf := rfl
@[simp] theorem State.lineUp_obuf (ops : List BusOp) : (s.lineUp ops).obuf = s.obuf := rfl
@[simp] theorem State.lineUp_inReset (ops : List BusOp) : (s.lineUp ops).inReset = s.inReset := rfl
@[simp] theorem State.lineUp_config (ops : List BusOp) : (s.lineUp ops).config = s.config := rfl
@[simp] theorem State.lineUp_turns (ops : List BusOp) : (s.lineUp ops).turns = s.turns := rfl
@[simp] theorem State.lineUp_delays (ops : List BusOp) : (s.lineUp ops).delays = s.delays := rfl
@[simp] theorem State.lineUp_draws (ops : List BusOp) : (s.lineUp ops).draws = s.draws := rfl

@[simp] theorem State.assign_cmdLatch (x : Ident) (v : HostVal) : (s.assign x v).cmdLatch = s.cmdLatch := rfl
@[simp] theorem State.assign_busy (x : Ident) (v : HostVal) : (s.assign x v).busy = s.busy := rfl
@[simp] theorem State.assign_done (x : Ident) (v : HostVal) : (s.assign x v).done = s.done := rfl
@[simp] theorem State.assign_found (x : Ident) (v : HostVal) : (s.assign x v).found = s.found := rfl
@[simp] theorem State.assign_ovr (x : Ident) (v : HostVal) : (s.assign x v).ovr = s.ovr := rfl
@[simp] theorem State.assign_err (x : Ident) (v : HostVal) : (s.assign x v).err = s.err := rfl
@[simp] theorem State.assign_value (x : Ident) (v : HostVal) : (s.assign x v).value = s.value := rfl
@[simp] theorem State.assign_count (x : Ident) (v : HostVal) : (s.assign x v).count = s.count := rfl
@[simp] theorem State.assign_inPtr (x : Ident) (v : HostVal) : (s.assign x v).inPtr = s.inPtr := rfl
@[simp] theorem State.assign_inLen (x : Ident) (v : HostVal) : (s.assign x v).inLen = s.inLen := rfl
@[simp] theorem State.assign_outLen (x : Ident) (v : HostVal) : (s.assign x v).outLen = s.outLen := rfl
@[simp] theorem State.assign_funcId (x : Ident) (v : HostVal) : (s.assign x v).funcId = s.funcId := rfl
@[simp] theorem State.assign_funcCode (x : Ident) (v : HostVal) : (s.assign x v).funcCode = s.funcCode := rfl
@[simp] theorem State.assign_ibuf (x : Ident) (v : HostVal) : (s.assign x v).ibuf = s.ibuf := rfl
@[simp] theorem State.assign_obuf (x : Ident) (v : HostVal) : (s.assign x v).obuf = s.obuf := rfl
@[simp] theorem State.assign_inReset (x : Ident) (v : HostVal) : (s.assign x v).inReset = s.inReset := rfl
@[simp] theorem State.assign_config (x : Ident) (v : HostVal) : (s.assign x v).config = s.config := rfl
@[simp] theorem State.assign_turns (x : Ident) (v : HostVal) : (s.assign x v).turns = s.turns := rfl
@[simp] theorem State.assign_delays (x : Ident) (v : HostVal) : (s.assign x v).delays = s.delays := rfl
@[simp] theorem State.assign_draws (x : Ident) (v : HostVal) : (s.assign x v).draws = s.draws := rfl

@[simp] theorem State.assignBytes_cmdLatch (x : Ident) (bs : List Byte) : (s.assignBytes x bs).cmdLatch = s.cmdLatch := rfl
@[simp] theorem State.assignBytes_busy (x : Ident) (bs : List Byte) : (s.assignBytes x bs).busy = s.busy := rfl
@[simp] theorem State.assignBytes_done (x : Ident) (bs : List Byte) : (s.assignBytes x bs).done = s.done := rfl
@[simp] theorem State.assignBytes_found (x : Ident) (bs : List Byte) : (s.assignBytes x bs).found = s.found := rfl
@[simp] theorem State.assignBytes_ovr (x : Ident) (bs : List Byte) : (s.assignBytes x bs).ovr = s.ovr := rfl
@[simp] theorem State.assignBytes_err (x : Ident) (bs : List Byte) : (s.assignBytes x bs).err = s.err := rfl
@[simp] theorem State.assignBytes_value (x : Ident) (bs : List Byte) : (s.assignBytes x bs).value = s.value := rfl
@[simp] theorem State.assignBytes_count (x : Ident) (bs : List Byte) : (s.assignBytes x bs).count = s.count := rfl
@[simp] theorem State.assignBytes_inPtr (x : Ident) (bs : List Byte) : (s.assignBytes x bs).inPtr = s.inPtr := rfl
@[simp] theorem State.assignBytes_inLen (x : Ident) (bs : List Byte) : (s.assignBytes x bs).inLen = s.inLen := rfl
@[simp] theorem State.assignBytes_outLen (x : Ident) (bs : List Byte) : (s.assignBytes x bs).outLen = s.outLen := rfl
@[simp] theorem State.assignBytes_funcId (x : Ident) (bs : List Byte) : (s.assignBytes x bs).funcId = s.funcId := rfl
@[simp] theorem State.assignBytes_funcCode (x : Ident) (bs : List Byte) : (s.assignBytes x bs).funcCode = s.funcCode := rfl
@[simp] theorem State.assignBytes_ibuf (x : Ident) (bs : List Byte) : (s.assignBytes x bs).ibuf = s.ibuf := rfl
@[simp] theorem State.assignBytes_obuf (x : Ident) (bs : List Byte) : (s.assignBytes x bs).obuf = s.obuf := rfl
@[simp] theorem State.assignBytes_inReset (x : Ident) (bs : List Byte) : (s.assignBytes x bs).inReset = s.inReset := rfl
@[simp] theorem State.assignBytes_config (x : Ident) (bs : List Byte) : (s.assignBytes x bs).config = s.config := rfl
@[simp] theorem State.assignBytes_turns (x : Ident) (bs : List Byte) : (s.assignBytes x bs).turns = s.turns := rfl
@[simp] theorem State.assignBytes_delays (x : Ident) (bs : List Byte) : (s.assignBytes x bs).delays = s.delays := rfl
@[simp] theorem State.assignBytes_draws (x : Ident) (bs : List Byte) : (s.assignBytes x bs).draws = s.draws := rfl

@[simp] theorem State.respond_cmdLatch (r : Response) : (s.respond r).cmdLatch = s.cmdLatch := rfl
@[simp] theorem State.respond_busy (r : Response) : (s.respond r).busy = s.busy := rfl
@[simp] theorem State.respond_done (r : Response) : (s.respond r).done = s.done := rfl
@[simp] theorem State.respond_found (r : Response) : (s.respond r).found = s.found := rfl
@[simp] theorem State.respond_ovr (r : Response) : (s.respond r).ovr = s.ovr := rfl
@[simp] theorem State.respond_err (r : Response) : (s.respond r).err = s.err := rfl
@[simp] theorem State.respond_value (r : Response) : (s.respond r).value = s.value := rfl
@[simp] theorem State.respond_count (r : Response) : (s.respond r).count = s.count := rfl
@[simp] theorem State.respond_inPtr (r : Response) : (s.respond r).inPtr = s.inPtr := rfl
@[simp] theorem State.respond_inLen (r : Response) : (s.respond r).inLen = s.inLen := rfl
@[simp] theorem State.respond_outLen (r : Response) : (s.respond r).outLen = s.outLen := rfl
@[simp] theorem State.respond_funcId (r : Response) : (s.respond r).funcId = s.funcId := rfl
@[simp] theorem State.respond_funcCode (r : Response) : (s.respond r).funcCode = s.funcCode := rfl
@[simp] theorem State.respond_ibuf (r : Response) : (s.respond r).ibuf = s.ibuf := rfl
@[simp] theorem State.respond_obuf (r : Response) : (s.respond r).obuf = s.obuf := rfl
@[simp] theorem State.respond_inReset (r : Response) : (s.respond r).inReset = s.inReset := rfl
@[simp] theorem State.respond_config (r : Response) : (s.respond r).config = s.config := rfl
@[simp] theorem State.respond_turns (r : Response) : (s.respond r).turns = s.turns := rfl
@[simp] theorem State.respond_delays (r : Response) : (s.respond r).delays = s.delays := rfl
@[simp] theorem State.respond_draws (r : Response) : (s.respond r).draws = s.draws := rfl

end Sys2Proof.Machine
end

