-- ==== Sys2Proof/Laws/Bus.lean ====
section
/-! SUPPORT. What a bus access can do: which places there are, what a read changes, all a write can change. -/

namespace Sys2Proof.Machine

theorem regAt_offset (r : Reg) : regAt r.offset = some r := by cases r <;> decide

theorem regAt_eq_some {off : Nat} {r : Reg} : regAt off = some r ↔ off = r.offset := by
  constructor
  · intro h
    have := List.find?_some h
    exact (beq_iff_eq.1 this).symm
  · rintro rfl
    exact regAt_offset r

theorem Reg.offset_lt (r : Reg) : r.offset < 0x34 := by cases r <;> decide

theorem Size.bytes_pos (n : Size) : 0 < n.bytes := by cases n <;> decide

theorem Size.bytes_le (n : Size) : n.bytes ≤ 4 := by cases n <;> decide

theorem State.locateBytes_eq_some {s : State} {b c : Buffer} {i j : Nat} {n : Size} :
    s.locateBytes b i n = some (.bytes c j) ↔ (c = b ∧ j = i) ∧ i % n.bytes = 0 ∧ i + n.bytes ≤ s.cap := by
  unfold State.locateBytes
  split_ifs with h
  · simp only [Option.some.injEq, Place.bytes.injEq, h, and_self, and_true]
    constructor <;> rintro ⟨rfl, rfl⟩ <;> exact ⟨rfl, rfl⟩
  · simp [h]

theorem State.locateBytes_ne_reg {s : State} {b : Buffer} {i : Nat} {n : Size} {r : Reg} :
    s.locateBytes b i n ≠ some (.reg r) := by
  unfold State.locateBytes
  split_ifs <;> simp

theorem Buffer.window_ibuf : Buffer.window .ibuf = 65536 := rfl

theorem Buffer.window_obuf : Buffer.window .obuf = 131072 := rfl

theorem locateReg_eq_some {off : Nat} {n : Size} {p : Place} :
    locateReg off n = some p ↔ ∃ r, p = .reg r ∧ n = .four ∧ off = r.offset := by
  unfold locateReg
  split_ifs with h
  · rw [Option.map_eq_some_iff]
    constructor
    · rintro ⟨r, hr, rfl⟩
      exact ⟨r, rfl, h, regAt_eq_some.1 hr⟩
    · rintro ⟨r, rfl, -, ho⟩
      exact ⟨r, regAt_eq_some.2 ho, rfl⟩
  · constructor
    · rintro ⟨⟩
    · rintro ⟨r, -, hn, -⟩
      exact absurd hn h

/-- Below the windows an access is of a register, by 4 bytes at its offset (20_memory.md R52). -/
theorem State.locate_low {s : State} {off : Nat} {n : Size} {p : Place} (h : off < 0x10000) :
    s.locate off n = some p ↔ ∃ r, p = .reg r ∧ n = .four ∧ off = r.offset := by
  rw [State.locate, if_pos h, locateReg_eq_some]

/-- A register is reached by a 4-byte access at its offset and no other (20_memory.md R52). -/
theorem State.locate_eq_reg {s : State} {off : Nat} {n : Size} {r : Reg} :
    s.locate off n = some (.reg r) ↔ n = .four ∧ off = r.offset := by
  by_cases hlow : off < 0x10000
  · rw [State.locate_low hlow]
    constructor
    · rintro ⟨q, he, hn, ho⟩
      cases he
      exact ⟨hn, ho⟩
    · rintro ⟨hn, ho⟩
      exact ⟨r, rfl, hn, ho⟩
  · have hne : off ≠ r.offset := fun he => hlow (by have := r.offset_lt; omega)
    constructor
    · intro h
      rw [State.locate, if_neg hlow] at h
      split_ifs at h
      · exact absurd h State.locateBytes_ne_reg
      · exact absurd h State.locateBytes_ne_reg
    · rintro ⟨-, he⟩
      exact absurd he hne

/-- A buffer byte is reached through its window, naturally aligned and inside BUF_CAP, and not otherwise
(20_memory.md R53). -/
theorem State.locate_eq_bytes {s : State} {off i : Nat} {n : Size} {b : Buffer} :
    s.locate off n = some (.bytes b i) ↔ off = b.window + i ∧ i % n.bytes = 0 ∧ i + n.bytes ≤ s.cap := by
  have hcap := s.cap_lt
  have hpos := n.bytes_pos
  constructor
  · intro h
    by_cases hlow : off < 0x10000
    · obtain ⟨r, he, -⟩ := (State.locate_low hlow).1 h
      cases he
    · rw [State.locate, if_neg hlow] at h
      split_ifs at h with h2 h3
      · obtain ⟨⟨hb, hi⟩, ha, hc⟩ := State.locateBytes_eq_some.1 h
        rw [hb, Buffer.window_ibuf, hi]
        exact ⟨by omega, ha, hc⟩
      · obtain ⟨⟨hb, hi⟩, ha, hc⟩ := State.locateBytes_eq_some.1 h
        rw [hb, Buffer.window_obuf, hi]
        exact ⟨by omega, ha, hc⟩
  · rintro ⟨rfl, ha, hc⟩
    rw [State.locate]
    cases b with
    | ibuf =>
      rw [Buffer.window_ibuf, if_neg (by omega), if_pos (by omega), Nat.add_sub_cancel_left]
      exact State.locateBytes_eq_some.2 ⟨⟨rfl, rfl⟩, ha, hc⟩
    | obuf =>
      rw [Buffer.window_obuf, if_neg (by omega), if_neg (by omega), if_pos (by omega), Nat.add_sub_cancel_left]
      exact State.locateBytes_eq_some.2 ⟨⟨rfl, rfl⟩, ha, hc⟩

theorem State.admitted_at_base {s : State} (h : s.inReset = false) (off : Nat) (n : Size) :
    s.admitted (s.config.base + off) n = s.locate off n := by
  simp [State.admitted, State.offsetOf, h]

/-- An admitted access lies at BASE plus an admitted offset, with reset not asserted. -/
theorem State.admitted_eq_some {s : State} {addr : Nat} {n : Size} {p : Place} :
    s.admitted addr n = some p ↔ s.inReset = false ∧ ∃ off, addr = s.config.base + off ∧ s.locate off n = some p := by
  constructor
  · intro h
    unfold State.admitted State.offsetOf at h
    cases hr : s.inReset with
    | true => simp [hr] at h
    | false =>
      by_cases hb : s.config.base ≤ addr
      · rw [hr, if_pos hb] at h
        exact ⟨rfl, addr - s.config.base, by omega, h⟩
      · rw [hr, if_neg hb] at h
        cases h
  · rintro ⟨hr, off, rfl, h⟩
    rw [State.admitted_at_base hr, h]

/-- A read changes nothing but the model's count of free bytes (20_memory.md R56). -/
theorem State.readPlace_state (s : State) (p : Place) (n : Size) : ∃ k, (s.readPlace p n).1 = s.drawn k := by
  have h0 : s = s.drawn 0 := rfl
  unfold State.readPlace
  split
  · exact ⟨0, h0⟩
  · split_ifs
    · exact ⟨_, rfl⟩
    · exact ⟨0, h0⟩
  · split_ifs <;> exact ⟨_, rfl⟩

/-- All an access can do: nothing but a count of free bytes, or the write of an admitted place. -/
theorem State.access_cases (s : State) (a : Access) :
    (∃ k, (s.access a).1 = s.drawn k) ∨
      ∃ addr n w p, a = .write addr n w ∧ s.admitted addr n = some p ∧ s.access a = (s.writePlace p n w, .done) := by
  cases a with
  | read addr n =>
    left
    rw [State.access]
    cases s.admitted addr n with
    | none => exact ⟨0, rfl⟩
    | some p => exact s.readPlace_state p n
  | write addr n w =>
    cases ha : s.admitted addr n with
    | none =>
      left
      rw [State.access, ha]
      exact ⟨0, rfl⟩
    | some p =>
      right
      refine ⟨addr, n, w, p, rfl, ha, ?_⟩
      rw [State.access, ha]

/-- While BUSY = 1 a write to any place sets OVR and nothing else (70_reset_and_hazards.md R251). -/
theorem State.writePlace_busy {s : State} (h : s.busy = true) (p : Place) (n : Size) (w : Word) :
    s.writePlace p n w = s.writeOverrun := if_pos h

theorem State.writePlace_reg {s : State} (h : s.busy = false) (r : Reg) (n : Size) (w : Word) :
    s.writePlace (.reg r) n w = s.writeReg r w := by
  rw [State.writePlace, if_neg (by simp [h])]

theorem State.writePlace_bytes {s : State} (h : s.busy = false) (b : Buffer) (i : Nat) (n : Size) (w : Word) :
    s.writePlace (.bytes b i) n w = s.setBuffer b ((s.buffer b).writeBytes i (bytesOfWord w n.bytes)) := by
  rw [State.writePlace, if_neg (by simp [h])]

theorem State.readPlace_status (s : State) (n : Size) : s.readPlace (.reg .status) n = (s, .data s.statusWord) := rfl

theorem State.readPlace_reg {s : State} (h : s.busy = false) (r : Reg) (n : Size) :
    s.readPlace (.reg r) n = (s, .data (s.readReg r)) := by
  cases r <;> simp [State.readPlace, State.readReg, h]

theorem State.readPlace_bytes {s : State} (h : s.busy = false) (b : Buffer) (i : Nat) (n : Size) :
    s.readPlace (.bytes b i) n = (s.drawn n.bytes, .data (wordOfBytes (s.hostBytes b i n.bytes))) := by
  simp [State.readPlace, h]

/-- While BUSY = 1 a read of any place but STATUS is a word of free bytes (70_reset_and_hazards.md R252). -/
theorem State.readPlace_busy {s : State} (h : s.busy = true) {p : Place} (hp : p ≠ .reg .status) (n : Size) :
    s.readPlace p n = (s.drawn n.bytes, .data (s.freeWord n.bytes)) := by
  cases p with
  | bytes b i => simp [State.readPlace, h]
  | reg r =>
    cases r with
    | status => exact absurd rfl hp
    | _ => simp [State.readPlace, h]

theorem State.access_read_place {s : State} (hr : s.inReset = false) {off : Nat} {n : Size} {p : Place}
    (h : s.locate off n = some p) : s.access (.read (s.config.base + off) n) = s.readPlace p n := by
  rw [State.access, State.admitted_at_base hr, h]

theorem State.access_write_place {s : State} (hr : s.inReset = false) {off : Nat} {n : Size} {p : Place}
    (h : s.locate off n = some p) (w : Word) :
    s.access (.write (s.config.base + off) n w) = (s.writePlace p n w, .done) := by
  rw [State.access, State.admitted_at_base hr, h]

/-- A register is read at its offset (20_memory.md R52). -/
theorem State.access_read_reg {s : State} (hr : s.inReset = false) (r : Reg) :
    s.access (.read (s.config.base + r.offset) .four) = s.readPlace (.reg r) .four :=
  State.access_read_place hr (State.locate_eq_reg.2 ⟨rfl, rfl⟩)

/-- A register is written at its offset (20_memory.md R52). -/
theorem State.access_write_reg {s : State} (hr : s.inReset = false) (r : Reg) (w : Word) :
    s.access (.write (s.config.base + r.offset) .four w) = (s.writePlace (.reg r) .four w, .done) :=
  State.access_write_place hr (State.locate_eq_reg.2 ⟨rfl, rfl⟩) w

theorem State.access_unadmitted {s : State} {addr : Nat} {n : Size} (h : s.admitted addr n = none) :
    s.access (.read addr n) = (s, .busError) ∧ ∀ w, s.access (.write addr n w) = (s, .busError) := by
  refine ⟨?_, fun w => ?_⟩ <;> rw [State.access, h]

theorem length_bytesOfWord (w : Word) (n : Nat) : (bytesOfWord w n).length = n := by simp [bytesOfWord]

theorem getElem_bytesOfWord (w : Word) (n k : Nat) (h : k < (bytesOfWord w n).length) :
    (bytesOfWord w n)[k] = w.extractLsb' (8 * k) 8 := by simp [bytesOfWord]

/-- The bytes of a word are found again in its byte lanes (20_memory.md R51). -/
theorem wordOfBytes_lane (bs : List Byte) (hl : bs.length ≤ 4) (k : Nat) (h : k < bs.length) :
    (wordOfBytes bs).extractLsb' (8 * k) 8 = bs[k] := by
  apply BitVec.eq_of_getLsbD_eq
  intro j hj
  rw [BitVec.getLsbD_extractLsb']
  simp only [hj, decide_true, Bool.true_and]
  induction bs generalizing k with
  | nil => simp at h
  | cons b bs ih =>
    rw [List.length_cons] at hl h
    rw [wordOfBytes, BitVec.getLsbD_or, BitVec.getLsbD_shiftLeft, BitVec.getLsbD_setWidth]
    cases k with
    | zero =>
      have h2 : j < 32 := by omega
      simp [hj, h2]
    | succ k =>
      have h1 : ¬8 * (k + 1) + j < 8 := by omega
      have h2 : 8 * (k + 1) + j < 32 := by omega
      have h3 : b.getLsbD (8 * (k + 1) + j) = false := BitVec.getLsbD_of_ge _ _ (by omega)
      have h4 := ih (by omega) k (by omega)
      rw [show 8 * (k + 1) + j - 8 = 8 * k + j by omega]
      simp [h1, h2, h3, h4]

/-- The low part of two words side by side. -/
theorem extract_append_low {m n : Nat} (a : BitVec m) (b : BitVec n) : (a ++ b).extractLsb' 0 n = b := by
  ext i hi
  simp [BitVec.getLsbD_append, hi]

/-- The high part of two words side by side. -/
theorem extract_append_high {m n : Nat} (a : BitVec m) (b : BitVec n) : (a ++ b).extractLsb' n m = a := by
  ext i hi
  rw [← BitVec.getLsbD_eq_getElem, ← BitVec.getLsbD_eq_getElem, BitVec.getLsbD_extractLsb', BitVec.getLsbD_append]
  simp [hi]

/-- A word with zeros above it. -/
theorem setWidth_eq_append {m n : Nat} (b : BitVec n) : b.setWidth (m + n) = (0 : BitVec m) ++ b := by
  apply BitVec.eq_of_getLsbD_eq
  intro i hi
  rw [BitVec.getLsbD_append, BitVec.getLsbD_setWidth]
  by_cases h : i < n <;> simp [h, hi]
  exact BitVec.getLsbD_of_ge _ _ (by omega)

@[simp] theorem State.buffer_setBuffer (s : State) (b : Buffer) (m : Memory) : (s.setBuffer b m).buffer b = m := by
  cases b <;> rfl

/-- All an access can do, by what it is of: a count of free bytes; OVR alone while BUSY = 1; a register write; bytes
stored inside BUF_CAP. -/
theorem State.access_effect (s : State) (a : Access) :
    (∃ k, (s.access a).1 = s.drawn k) ∨ (s.busy = true ∧ (s.access a).1 = s.writeOverrun) ∨
    (s.busy = false ∧ s.inReset = false ∧
      ∃ r w, a = .write (s.config.base + r.offset) .four w ∧ (s.access a).1 = s.writeReg r w) ∨
    (s.busy = false ∧ ∃ b i n w, i + n.bytes ≤ s.cap ∧
      (s.access a).1 = s.setBuffer b ((s.buffer b).writeBytes i (bytesOfWord w (Size.bytes n)))) := by
  rcases s.access_cases a with h | ⟨addr, n, w, p, rfl, ha, he⟩
  · exact Or.inl h
  rw [he]
  cases hb : s.busy with
  | true => exact Or.inr (Or.inl ⟨rfl, State.writePlace_busy hb _ _ _⟩)
  | false =>
    obtain ⟨hr, off, rfl, hl⟩ := State.admitted_eq_some.1 ha
    cases p with
    | reg r =>
      obtain ⟨rfl, rfl⟩ := State.locate_eq_reg.1 hl
      exact Or.inr (Or.inr (Or.inl ⟨rfl, hr, r, w, rfl, State.writePlace_reg hb _ .four _⟩))
    | bytes b i =>
      obtain ⟨-, -, hc⟩ := State.locate_eq_bytes.1 hl
      exact Or.inr (Or.inr (Or.inr ⟨rfl, b, i, n, w, hc, State.writePlace_bytes hb _ _ _ _⟩))

end Sys2Proof.Machine
end

