-- ==== Sys2Proof/Laws/Hex.lean ====
section
/-! SUPPORT. What the hex decoder can do: how text of good pairs decodes, what it stops at, and that a digit written is
a digit read. -/

namespace Sys2Proof.Machine

theorem hexval_lt {c : Byte} {d : Nat} (h : hexval c = some d) : d < 16 := by
  unfold hexval at h
  split_ifs at h <;> simp only [Option.some.injEq] at h <;> omega

theorem hexval_hexDigit (d : Nat) (h : d < 16) : hexval (hexDigit d) = some d := by
  revert d; decide

theorem length_pairText (ps : List (Byte × Byte)) : (pairText ps).length = 2 * ps.length := by
  induction ps with
  | nil => rfl
  | cons p ps ih =>
    rw [pairText] at ih ⊢
    simp only [List.flatMap_cons, List.length_append, List.length_cons, List.length_nil, ih]
    omega

theorem hexDigitAt_some {i : Nat} {c : Byte} {d : Nat} (h : hexval c = some d) : hexDigitAt i (some c) = .ok d := by
  simp only [hexDigitAt, h]

theorem hexDigitAt_bad {i : Nat} {c : Byte} (h : hexval c = none) :
    hexDigitAt i (some c) = .error (.failed .invalidInput) := by
  simp only [hexDigitAt, h]

/-- The decoder passes over good pairs, and keeps what they spell. -/
theorem hexDecodeFrom_pairs (i : Nat) (ps : List (Byte × Byte)) (out : List Byte) (rest : List (Option Byte))
    (h : List.Forall₂ spells ps out) :
    hexDecodeFrom i (pairText ps ++ rest) =
      match hexDecodeFrom (i + 2 * ps.length) rest with
      | .ok bs => .ok (out ++ bs)
      | .error e => .error e := by
  induction h generalizing i with
  | nil =>
    show hexDecodeFrom i rest = _
    rw [List.length_nil, Nat.mul_zero, Nat.add_zero]
    cases hexDecodeFrom i rest <;> rfl
  | @cons p b ps out hp _ ih =>
    obtain ⟨x, y, hx, hy, hb⟩ := hp
    have hx' := hexval_lt hx
    have hy' := hexval_lt hy
    have hb' : BitVec.ofNat 8 (x * 16 + y) = b := by
      apply BitVec.eq_of_toNat_eq
      rw [BitVec.toNat_ofNat]
      omega
    have ih' := ih (i + 2)
    rw [show i + 2 + 2 * ps.length = i + 2 * (ps.length + 1) by omega] at ih'
    show hexDecodeFrom i (some p.1 :: some p.2 :: (pairText ps ++ rest)) = _
    simp only [hexDecodeFrom, hexDigitAt_some hx, hexDigitAt_some hy, ih', List.length_cons, hb']
    cases hexDecodeFrom (i + 2 * (ps.length + 1)) rest <;> rfl

theorem hexDecode_pairs {ps : List (Byte × Byte)} {out : List Byte} (h : List.Forall₂ spells ps out) :
    hexDecode (pairText ps) = .ok out := by
  have := hexDecodeFrom_pairs 0 ps out [] h
  rw [List.append_nil] at this
  rw [hexDecode, if_neg (by rw [length_pairText]; omega), this]
  simp [hexDecodeFrom]

theorem hexDecode_odd {l : List (Option Byte)} (h : l.length % 2 = 1) :
    hexDecode l = .error (.failed .invalidInput) := by
  rw [hexDecode, if_pos h]

/-- Every text of even length is good pairs up to its end, or up to a pair whose first or second character stops the
decoder. -/
theorem hex_split (l : List (Option Byte)) (h : l.length % 2 = 0) :
    ∃ ps out, List.Forall₂ spells ps out ∧
      (l = pairText ps ∨ ∃ c d rest, l = pairText ps ++ c :: d :: rest ∧
        ((∃ j e, hexDigitAt j c = .error e) ∨ (∃ j x k e, hexDigitAt j c = .ok x ∧ hexDigitAt k d = .error e))) := by
  match l, h with
  | [], _ => exact ⟨[], [], .nil, Or.inl rfl⟩
  | [_], h => simp at h
  | c :: d :: rest, h =>
    have hlen : rest.length % 2 = 0 := by
      simp only [List.length_cons] at h
      omega
    cases hc : hexDigitAt 0 c with
    | error e => exact ⟨[], [], .nil, Or.inr ⟨c, d, rest, rfl, Or.inl ⟨0, e, hc⟩⟩⟩
    | ok x =>
      cases hd : hexDigitAt 0 d with
      | error e => exact ⟨[], [], .nil, Or.inr ⟨c, d, rest, rfl, Or.inr ⟨0, x, 0, e, hc, hd⟩⟩⟩
      | ok y =>
        obtain ⟨ps, out, hps, hl⟩ := hex_split rest hlen
        have hval : ∀ {o : Option Byte} {z : Nat}, hexDigitAt 0 o = .ok z → ∃ a, o = some a ∧ hexval a = some z := by
          intro o z ho
          cases o with
          | none => cases ho
          | some a =>
            refine ⟨a, rfl, ?_⟩
            cases ha : hexval a with
            | none => rw [hexDigitAt_bad ha] at ho; cases ho
            | some w => rw [hexDigitAt_some ha] at ho; cases ho; rfl
        obtain ⟨a, rfl, ha⟩ := hval hc
        obtain ⟨b, rfl, hb⟩ := hval hd
        have hx := hexval_lt ha
        have hy := hexval_lt hb
        refine ⟨(a, b) :: ps, BitVec.ofNat 8 (x * 16 + y) :: out, .cons ⟨x, y, ha, hb, ?_⟩ hps, ?_⟩
        · rw [BitVec.toNat_ofNat]
          exact Nat.mod_eq_of_lt (by omega)
        · rcases hl with rfl | ⟨c', d', rest', rfl, hs⟩
          · exact Or.inl rfl
          · exact Or.inr ⟨c', d', rest', rfl, hs⟩

theorem hexDigitAt_error {j : Nat} {c : Option Byte} {e : Stop} (h : hexDigitAt j c = .error e) :
    (c = none ∧ e = .unwritten j) ∨ (∃ a, c = some a ∧ hexval a = none ∧ e = .failed .invalidInput) := by
  cases c with
  | none => cases h; exact Or.inl ⟨rfl, rfl⟩
  | some a =>
    cases ha : hexval a with
    | none => rw [hexDigitAt_bad ha] at h; cases h; exact Or.inr ⟨a, rfl, ha, rfl⟩
    | some w => rw [hexDigitAt_some ha] at h; cases h

/-- After good pairs, what the decoder does is what it does at the next pair. -/
theorem hexDecode_after_pairs {ps : List (Byte × Byte)} {out : List Byte} (h : List.Forall₂ spells ps out)
    (c d : Option Byte) (rest : List (Option Byte)) (hr : rest.length % 2 = 0) (e : Stop)
    (hs : hexDigitAt (2 * ps.length) c = .error e ∨
      ∃ x, hexDigitAt (2 * ps.length) c = .ok x ∧ hexDigitAt (2 * ps.length + 1) d = .error e) :
    hexDecode (pairText ps ++ c :: d :: rest) = .error e := by
  have hl : (pairText ps ++ c :: d :: rest).length % 2 ≠ 1 := by
    simp only [List.length_append, length_pairText, List.length_cons]
    omega
  rw [hexDecode, if_neg hl, hexDecodeFrom_pairs 0 ps out _ h, Nat.zero_add]
  rcases hs with hc | ⟨x, hc, hd⟩
  · simp only [hexDecodeFrom, hc]
  · simp only [hexDecodeFrom, hc, hd]

/-- All the hex decoder can answer: bytes spelled by the whole text, INVALID_INPUT, or a stop at a byte of the text that
holds no value (42_hex.md R151). -/
theorem hexDecode_cases (l : List (Option Byte)) :
    (∃ ps out, List.Forall₂ spells ps out ∧ l = pairText ps ∧ hexDecode l = .ok out) ∨
      hexDecode l = .error (.failed .invalidInput) ∨
      ∃ k, l[k]? = some none ∧ hexDecode l = .error (.unwritten k) := by
  rcases Nat.mod_two_eq_zero_or_one l.length with h | h
  · obtain ⟨ps, out, hps, rfl | ⟨c, d, rest, rfl, hs⟩⟩ := hex_split l h
    · exact Or.inl ⟨ps, out, hps, rfl, hexDecode_pairs hps⟩
    · right
      have hr : rest.length % 2 = 0 := by
        simp only [List.length_append, length_pairText, List.length_cons] at h
        omega
      have hnone : ∀ k (m : List (Option Byte)), (pairText ps ++ m)[2 * ps.length + k]? = m[k]? := by
        intro k m
        rw [List.getElem?_append_right (by rw [length_pairText]; omega), length_pairText]
        congr 1
        omega
      rcases hs with ⟨j, e, hc⟩ | ⟨j, x, k, e, hc, hd⟩
      · rcases hexDigitAt_error hc with ⟨rfl, -⟩ | ⟨a, rfl, ha, -⟩
        · right
          refine ⟨2 * ps.length, ?_, hexDecode_after_pairs hps none d rest hr _ (Or.inl rfl)⟩
          exact hnone 0 _
        · left
          exact hexDecode_after_pairs hps _ d rest hr _ (Or.inl (hexDigitAt_bad ha))
      · have hc' : hexDigitAt (2 * ps.length) c = .ok x := by
          cases c with
          | none => cases hc
          | some a =>
            cases ha : hexval a with
            | none => rw [hexDigitAt_bad ha] at hc; cases hc
            | some w => rw [hexDigitAt_some ha] at hc ⊢; exact hc
        rcases hexDigitAt_error hd with ⟨rfl, -⟩ | ⟨a, rfl, ha, -⟩
        · right
          refine ⟨2 * ps.length + 1, ?_, hexDecode_after_pairs hps c none rest hr _ (Or.inr ⟨x, hc', rfl⟩)⟩
          exact hnone 1 _
        · left
          exact hexDecode_after_pairs hps c _ rest hr _ (Or.inr ⟨x, hc', hexDigitAt_bad ha⟩)
  · exact Or.inr (Or.inl (hexDecode_odd h))

theorem length_hexEncode (bs : List Byte) : (hexEncode bs).length = 2 * bs.length := by
  induction bs with
  | nil => rfl
  | cons b bs ih =>
    simp only [hexEncode, List.length_cons, ih]
    omega

end Sys2Proof.Machine
end

