-- ==== Sys2Proof/Laws/Varint.lean ====
section
/-! SUPPORT. What the varint decoder and encoder can do: how a sequence of bytes splits at its terminal byte, what the
decoder answers for each split, and what the encoder emits. -/

namespace Sys2Proof.Machine

theorem continues_iff (b : Byte) : continues b = true ↔ 128 ≤ b.toNat := by
  revert b; decide

theorem not_continues_iff (b : Byte) : continues b = false ↔ b.toNat < 128 := by
  revert b; decide

theorem toNat_low7 (b : Byte) : (b &&& 0x7F).toNat = b.toNat % 128 := by
  revert b; decide

theorem toNat_high_bit_set (b : Byte) : (b ||| 0x80).toNat = b.toNat % 128 + 128 := by
  revert b; decide

theorem toNat_group (b : Byte) : (group b).toNat = b.toNat % 128 := by
  have := Nat.mod_lt b.toNat (show 128 > 0 by decide)
  rw [group, BitVec.toNat_setWidth, toNat_low7]
  exact Nat.mod_eq_of_lt (by omega)

theorem varintSum_lt (bs : List Byte) : varintSum bs < 2 ^ (7 * bs.length) := by
  induction bs with
  | nil => simp [varintSum]
  | cons b bs ih =>
    have := Nat.mod_lt b.toNat (show 128 > 0 by decide)
    rw [List.length_cons, Nat.mul_succ, Nat.pow_add, varintSum]
    omega

theorem varintSum_append (xs ys : List Byte) :
    varintSum (xs ++ ys) = varintSum xs + 2 ^ (7 * xs.length) * varintSum ys := by
  induction xs with
  | nil => simp [varintSum]
  | cons b xs ih =>
    simp only [List.cons_append, varintSum, ih, List.length_cons, Nat.mul_succ, Nat.pow_add]
    ring

/-- Every sequence splits at the end, at a byte without a value, or at its first terminal byte. -/
theorem varint_split (l : List (Option Byte)) :
    ∃ cs : List Byte, (∀ c ∈ cs, continues c = true) ∧
      (l = cs.map some ∨ (∃ rest, l = cs.map some ++ none :: rest) ∨
        ∃ b rest, continues b = false ∧ l = cs.map some ++ some b :: rest) := by
  induction l with
  | nil => exact ⟨[], by simp, Or.inl rfl⟩
  | cons o l ih =>
    cases o with
    | none => exact ⟨[], by simp, Or.inr (Or.inl ⟨l, rfl⟩)⟩
    | some b =>
      cases hb : continues b with
      | false => exact ⟨[], by simp, Or.inr (Or.inr ⟨b, l, hb, rfl⟩)⟩
      | true =>
        obtain ⟨cs, hcs, h⟩ := ih
        refine ⟨b :: cs, by simpa [hb] using hcs, ?_⟩
        rcases h with rfl | ⟨rest, rfl⟩ | ⟨c, rest, hc, rfl⟩
        · exact Or.inl rfl
        · exact Or.inr (Or.inl ⟨rest, rfl⟩)
        · exact Or.inr (Or.inr ⟨c, rest, hc, rfl⟩)

/-- The decoder passes over continuation bytes, whatever it accumulates. -/
theorem decodeRawFrom_continuation (i : Nat) (x : DWord) (cs : List Byte) (rest : List (Option Byte))
    (h : ∀ c ∈ cs, continues c = true) :
    ∃ y, decodeRawFrom i x (cs.map some ++ rest) = decodeRawFrom (i + cs.length) y rest := by
  induction cs generalizing i x with
  | nil => exact ⟨x, rfl⟩
  | cons c cs ih =>
    obtain ⟨hc, hcs⟩ := List.forall_mem_cons.1 h
    obtain ⟨y, hy⟩ := ih (i + 1) (x ||| (group c <<< (7 * i))) hcs
    refine ⟨y, ?_⟩
    simp only [List.map_cons, List.cons_append, decodeRawFrom, hc, if_true, List.length_cons]
    rw [hy, Nat.add_assoc, Nat.add_comm 1]

/-- A group folded in above the bits already there is an addition. -/
theorem toNat_or_shift {x g : DWord} {k n : Nat} (hx : x.toNat < 2 ^ k) (hg : 2 ^ k * g.toNat + x.toNat < 2 ^ n)
    (hn : n ≤ 64) : (x ||| (g <<< k)).toNat = x.toNat + 2 ^ k * g.toNat := by
  have hle : 2 ^ n ≤ 2 ^ 64 := Nat.pow_le_pow_right (by decide) hn
  have hsh : (g <<< k).toNat = 2 ^ k * g.toNat := by
    rw [BitVec.toNat_shiftLeft, Nat.shiftLeft_eq, Nat.mul_comm]
    exact Nat.mod_eq_of_lt (by omega)
  rw [BitVec.toNat_or, hsh, Nat.or_comm, ← Nat.two_pow_add_eq_or_of_lt hx]
  omega

/-- While at most 9 groups have been read, the decoder's accumulator is their sum (41_varint.md R121). -/
theorem decodeRawFrom_sum (i : Nat) (x : DWord) (cs : List Byte) (rest : List (Option Byte))
    (h : ∀ c ∈ cs, continues c = true) (hx : x.toNat < 2 ^ (7 * i)) (hi : i + cs.length ≤ 9) :
    ∃ y : DWord, y.toNat = x.toNat + 2 ^ (7 * i) * varintSum cs ∧
      decodeRawFrom i x (cs.map some ++ rest) = decodeRawFrom (i + cs.length) y rest := by
  induction cs generalizing i x with
  | nil => exact ⟨x, by simp [varintSum], rfl⟩
  | cons c cs ih =>
    obtain ⟨hc, hcs⟩ := List.forall_mem_cons.1 h
    rw [List.length_cons] at hi
    have hm := Nat.mod_lt c.toNat (show 128 > 0 by decide)
    have hpow : 2 ^ (7 * (i + 1)) = 2 ^ (7 * i) * 128 := by rw [Nat.mul_succ, Nat.pow_add]
    have hlt : 2 ^ (7 * i) * (group c).toNat + x.toNat < 2 ^ (7 * (i + 1)) := by
      rw [toNat_group, hpow]
      have : 2 ^ (7 * i) * (c.toNat % 128) ≤ 2 ^ (7 * i) * 127 := Nat.mul_le_mul_left _ (by omega)
      omega
    have hor := toNat_or_shift hx hlt (by omega)
    obtain ⟨y, hy, hd⟩ := ih (i + 1) (x ||| (group c <<< (7 * i))) hcs (by omega) (by omega)
    refine ⟨y, ?_, ?_⟩
    · rw [hy, hor, toNat_group, hpow, varintSum]
      ring
    · simp only [List.map_cons, List.cons_append, decodeRawFrom, hc, if_true, List.length_cons]
      rw [hd, Nat.add_assoc, Nat.add_comm 1]

theorem decodeRaw_tooShort (cs : List Byte) (h : ∀ c ∈ cs, continues c = true) :
    decodeRaw (cs.map some) = .ok (0, 0) := by
  obtain ⟨y, hy⟩ := decodeRawFrom_continuation 0 0 cs [] h
  rw [List.append_nil] at hy
  rw [decodeRaw, hy]
  rfl

theorem decodeRaw_unwritten (cs : List Byte) (rest : List (Option Byte)) (h : ∀ c ∈ cs, continues c = true) :
    decodeRaw (cs.map some ++ none :: rest) = .error (.unwritten cs.length) := by
  obtain ⟨y, hy⟩ := decodeRawFrom_continuation 0 0 cs (none :: rest) h
  rw [decodeRaw, hy, Nat.zero_add]
  rfl

theorem decodeRaw_overflow (cs : List Byte) (b : Byte) (rest : List (Option Byte))
    (h : ∀ c ∈ cs, continues c = true) (hb : continues b = false)
    (ho : 10 ≤ cs.length ∨ cs.length = 9 ∧ 1 < b.toNat) :
    decodeRaw (cs.map some ++ some b :: rest) = .ok (0, -(cs.length + 1 : Int)) := by
  obtain ⟨y, hy⟩ := decodeRawFrom_continuation 0 0 cs (some b :: rest) h
  rw [decodeRaw, hy, Nat.zero_add]
  simp only [decodeRawFrom, hb, Bool.false_eq_true, if_false]
  rw [if_pos ho]

theorem decodeRaw_value (cs : List Byte) (b : Byte) (rest : List (Option Byte))
    (h : ∀ c ∈ cs, continues c = true) (hb : continues b = false)
    (ho : cs.length < 9 ∨ cs.length = 9 ∧ b.toNat ≤ 1) :
    varintSum (cs ++ [b]) < 2 ^ 64 ∧ decodeRaw (cs.map some ++ some b :: rest) =
      .ok (BitVec.ofNat 64 (varintSum (cs ++ [b])), (cs.length + 1 : Int)) := by
  obtain ⟨y, hy, hd⟩ := decodeRawFrom_sum 0 0 cs (some b :: rest) h (by decide) (by omega)
  have hb' := (not_continues_iff b).1 hb
  have hsum : varintSum (cs ++ [b]) = varintSum cs + 2 ^ (7 * cs.length) * b.toNat := by
    rw [varintSum_append, varintSum, varintSum, Nat.mod_eq_of_lt hb', Nat.mul_zero, Nat.add_zero]
  have hlt := varintSum_lt cs
  have h64 : varintSum (cs ++ [b]) < 2 ^ 64 := by
    rcases ho with ho | ⟨ho, hb1⟩
    · have h1 := varintSum_lt (cs ++ [b])
      have h2 : 2 ^ (7 * (cs ++ [b]).length) ≤ 2 ^ 64 := by
        apply Nat.pow_le_pow_right (by decide)
        simp only [List.length_append, List.length_cons, List.length_nil]
        omega
      omega
    · rw [ho] at hlt
      rw [hsum, ho]
      have : 2 ^ (7 * 9) * b.toNat ≤ 2 ^ (7 * 9) * 1 := Nat.mul_le_mul_left _ hb1
      omega
  refine ⟨h64, ?_⟩
  have hy' : y.toNat = varintSum cs := by simpa using hy
  have hw : (b.setWidth 64).toNat = b.toNat := by
    rw [BitVec.toNat_setWidth]
    exact Nat.mod_eq_of_lt (by omega)
  have hv : y ||| (b.setWidth 64 <<< (7 * cs.length)) = BitVec.ofNat 64 (varintSum (cs ++ [b])) := by
    apply BitVec.eq_of_toNat_eq
    rw [toNat_or_shift (n := 64) (by omega) (by rw [hw, hy', ← Nat.add_comm, ← hsum]; exact h64) (le_refl _), hw, hy',
      BitVec.toNat_ofNat, Nat.mod_eq_of_lt h64, hsum]
  rw [decodeRaw, hd, Nat.zero_add]
  simp only [decodeRawFrom, hb, Bool.false_eq_true, if_false]
  rw [if_neg (by omega), hv]

/-- All the decoder can answer: its count lies within the sequence and is at most 10 (41_varint.md R120, R122). -/
theorem decodeRaw_count {l : List (Option Byte)} {v : DWord} {c : Int} (h : decodeRaw l = .ok (v, c)) :
    -(l.length : Int) ≤ c ∧ c ≤ l.length ∧ c ≤ 10 := by
  obtain ⟨cs, hcs, hl⟩ := varint_split l
  rcases hl with rfl | ⟨rest, rfl⟩ | ⟨b, rest, hb, rfl⟩
  · rw [decodeRaw_tooShort cs hcs] at h
    cases h
    refine ⟨?_, ?_, ?_⟩ <;> simp
  · rw [decodeRaw_unwritten cs rest hcs] at h
    cases h
  · simp only [List.length_append, List.length_map, List.length_cons]
    by_cases ho : 10 ≤ cs.length ∨ cs.length = 9 ∧ 1 < b.toNat
    · rw [decodeRaw_overflow cs b rest hcs hb ho] at h
      cases h
      omega
    · have hv := (decodeRaw_value cs b rest hcs hb (by omega)).2
      rw [hv] at h
      cases h
      omega

/-- Where the decoder stops, it is at a byte without a value. -/
theorem decodeRaw_error {l : List (Option Byte)} {e : Stop} (h : decodeRaw l = .error e) :
    ∃ (bs : List Byte) (rest : List (Option Byte)), l = bs.map some ++ none :: rest ∧ e = .unwritten bs.length := by
  obtain ⟨cs, hcs, hl⟩ := varint_split l
  rcases hl with rfl | ⟨rest, rfl⟩ | ⟨b, rest, hb, rfl⟩
  · rw [decodeRaw_tooShort cs hcs] at h
    cases h
  · rw [decodeRaw_unwritten cs rest hcs] at h
    cases h
    exact ⟨cs, rest, rfl, rfl⟩
  · by_cases ho : 10 ≤ cs.length ∨ cs.length = 9 ∧ 1 < b.toNat
    · rw [decodeRaw_overflow cs b rest hcs hb ho] at h
      cases h
    · rw [(decodeRaw_value cs b rest hcs hb (by omega)).2] at h
      cases h

theorem toNat_shiftRight7 (v : DWord) : (v >>> 7).toNat = v.toNat / 128 := by
  rw [BitVec.toNat_ushiftRight, Nat.shiftRight_eq_div_pow]

/-- What the encoder emits for a value of at most `7 * fuel` bits: continuation bytes and a terminal byte, which is not
0 unless it stands alone, with the value as their sum (41_varint.md R127). -/
theorem encodeVarintFuel_shape (fuel : Nat) (v : DWord) (hf : 0 < fuel) (hv : v.toNat < 2 ^ (7 * fuel)) :
    ∃ cs b, encodeVarintFuel fuel v = cs ++ [b] ∧ (∀ c ∈ cs, continues c = true) ∧ continues b = false ∧
      cs.length < fuel ∧ varintSum (cs ++ [b]) = v.toNat ∧ (cs ≠ [] → b.toNat ≠ 0) := by
  induction fuel generalizing v with
  | zero => omega
  | succ fuel ih =>
    have hlow : (v.setWidth 8).toNat % 128 = v.toNat % 128 := by
      rw [BitVec.toNat_setWidth]
      exact Nat.mod_mod_of_dvd _ (by decide)
    by_cases h0 : v >>> 7 = 0
    · have hz : v.toNat / 128 = 0 := by
        rw [← toNat_shiftRight7, h0]
        rfl
      refine ⟨[], v.setWidth 8 &&& 0x7F, ?_, by simp, ?_, by simp, ?_, by simp⟩
      · simp [encodeVarintFuel, h0]
      · rw [not_continues_iff, toNat_low7]
        exact Nat.mod_lt _ (by decide)
      · rw [List.nil_append, varintSum, varintSum, toNat_low7, hlow]
        omega
    · have hne : v.toNat / 128 ≠ 0 := by
        rw [← toNat_shiftRight7]
        exact fun h => h0 (BitVec.eq_of_toNat_eq h)
      have hlt : (v >>> 7).toNat < 2 ^ (7 * fuel) := by
        rw [toNat_shiftRight7]
        rw [Nat.mul_succ, Nat.pow_add] at hv
        omega
      have hf' : 0 < fuel := by
        rcases Nat.eq_zero_or_pos fuel with rfl | h
        · rw [toNat_shiftRight7] at hlt
          simp at hlt
          omega
        · exact h
      obtain ⟨cs, b, he, hcs, hb, hlen, hsum, hnz⟩ := ih (v >>> 7) hf' hlt
      refine ⟨(v.setWidth 8 ||| 0x80) :: cs, b, ?_, ?_, hb, by simpa using hlen, ?_, fun _ => ?_⟩
      · rw [encodeVarintFuel, if_pos h0, he, List.cons_append]
      · intro c hc
        rcases List.mem_cons.1 hc with rfl | hc
        · rw [continues_iff, toNat_high_bit_set]
          omega
        · exact hcs c hc
      · rw [List.cons_append, varintSum, hsum, toNat_high_bit_set, toNat_shiftRight7]
        omega
      · by_cases hc : cs = []
        · subst hc
          rw [List.nil_append, varintSum, varintSum] at hsum
          have hlt' := (not_continues_iff b).1 hb
          rw [toNat_shiftRight7] at hsum
          omega
        · exact hnz hc

/-- What the encoder emits: 1 to 10 bytes, the shape the decoder accepts (41_varint.md R127, R128). -/
theorem encodeVarint_shape (v : DWord) :
    ∃ cs b, encodeVarint v = cs ++ [b] ∧ (∀ c ∈ cs, continues c = true) ∧ continues b = false ∧
      (cs.length < 9 ∨ cs.length = 9 ∧ b.toNat ≤ 1) ∧ varintSum (cs ++ [b]) = v.toNat ∧
      (cs ≠ [] → b.toNat ≠ 0) := by
  have hv : v.toNat < 2 ^ (7 * 10) := lt_trans v.isLt (by decide)
  obtain ⟨cs, b, he, hcs, hb, hlen, hsum, hnz⟩ := encodeVarintFuel_shape 10 v (by decide) hv
  refine ⟨cs, b, he, hcs, hb, ?_, hsum, hnz⟩
  rcases Nat.lt_or_ge cs.length 9 with h | h
  · exact Or.inl h
  · have h9 : cs.length = 9 := by omega
    refine Or.inr ⟨h9, ?_⟩
    have hb' := (not_continues_iff b).1 hb
    rw [varintSum_append, varintSum, varintSum, Nat.mod_eq_of_lt hb', h9] at hsum
    have := v.isLt
    by_contra hc
    have : 2 ^ (7 * 9) * 2 ≤ 2 ^ (7 * 9) * (b.toNat + 128 * 0) := Nat.mul_le_mul_left _ (by omega)
    omega

theorem length_encodeVarint (v : DWord) : 1 ≤ (encodeVarint v).length ∧ (encodeVarint v).length ≤ 10 := by
  obtain ⟨cs, b, he, -, -, ho, -⟩ := encodeVarint_shape v
  simp only [he, List.length_append, List.length_cons, List.length_nil]
  omega

end Sys2Proof.Machine
end

