-- ==== Sys2Proof/Laws/Exec.lean ====
section
/-! SUPPORT. What each command's meaning answers, once the pointer check has passed and its operand is known. -/

namespace Sys2Proof.Machine

variable {s : State}

theorem exec_badPointers (h : s.pointersOk = false) (i : Instr) : exec i s = .next (s.fail .badPointers) := by
  cases i <;> exact State.checked_bad h _

theorem execVdecraw_decoded (h : s.pointersOk = true) {v : DWord} {c : Int} (hd : decodeRaw s.window = .ok (v, c)) :
    execVdecraw s = .next (s.setDecoded v c).succeed := by
  rw [execVdecraw, State.checked_ok h, hd]
  rfl

theorem execVdecraw_stopped (h : s.pointersOk = true) {k : Nat} (hd : decodeRaw s.window = .error (.unwritten k)) :
    execVdecraw s = .fault (.uninitRead .ibuf (s.inPtr.toNat + k)) := by
  rw [execVdecraw, State.checked_ok h, hd]
  rfl

theorem execVdec_decoded (h : s.pointersOk = true) {v : DWord} {c : Int} (hd : decodeRaw s.window = .ok (v, c)) :
    execVdec s = .next (s.finishVdec v c) := by
  rw [execVdec, State.checked_ok h, hd]
  rfl

theorem execVdec_stopped (h : s.pointersOk = true) {k : Nat} (hd : decodeRaw s.window = .error (.unwritten k)) :
    execVdec s = .fault (.uninitRead .ibuf (s.inPtr.toNat + k)) := by
  rw [execVdec, State.checked_ok h, hd]
  rfl

/-- The three ends of VDEC (41_varint.md R126). -/
theorem finishVdec_cases (s : State) (v : DWord) (c : Int) :
    (c = 0 ∧ s.finishVdec v c = (s.setDecoded v c).fail .bufferTooShort) ∨
      (c < 0 ∧ s.finishVdec v c = (s.setDecoded v c).fail .varintTooLong) ∨
      (0 < c ∧ s.finishVdec v c = ((s.setDecoded v c).advanceInput c.toNat).succeed) := by
  unfold State.finishVdec
  split_ifs with h0 h1
  · exact Or.inl ⟨h0, rfl⟩
  · exact Or.inr (Or.inl ⟨h1, rfl⟩)
  · exact Or.inr (Or.inr ⟨by omega, rfl⟩)

theorem execVenc_fits (h : s.pointersOk = true) (hf : s.outLen.toNat + (encodeVarint s.value).length ≤ s.cap) :
    execVenc s = .next (s.appended (encodeVarint s.value)).succeed := by
  rw [execVenc, State.checked_ok h, State.append_fits hf]
  rfl

theorem execVenc_overflows (h : s.pointersOk = true) (hf : s.cap < s.outLen.toNat + (encodeVarint s.value).length) :
    execVenc s = .next (s.fail .outputOverflow) := by
  rw [execVenc, State.checked_ok h, State.append_overflows hf]
  rfl

theorem execHexdec_fits (h : s.pointersOk = true) {out : List Byte} (hd : hexDecode s.window = .ok out)
    (hf : s.outLen.toNat + out.length ≤ s.cap) :
    execHexdec s = .next (s.appended out).consumeInput.succeed := by
  rw [execHexdec, State.checked_ok h, hd]
  simp only [State.append_fits hf]
  rfl

theorem execHexdec_overflows (h : s.pointersOk = true) {out : List Byte} (hd : hexDecode s.window = .ok out)
    (hf : s.cap < s.outLen.toNat + out.length) : execHexdec s = .next (s.fail .outputOverflow) := by
  rw [execHexdec, State.checked_ok h, hd]
  simp only [State.append_overflows hf]
  rfl

theorem execHexdec_failed (h : s.pointersOk = true) {e : ErrCode} (hd : hexDecode s.window = .error (.failed e)) :
    execHexdec s = .next (s.fail e) := by
  rw [execHexdec, State.checked_ok h, hd]
  rfl

theorem execHexdec_stopped (h : s.pointersOk = true) {k : Nat} (hd : hexDecode s.window = .error (.unwritten k)) :
    execHexdec s = .fault (.uninitRead .ibuf (s.inPtr.toNat + k)) := by
  rw [execHexdec, State.checked_ok h, hd]
  rfl

theorem execHexenc_fits (h : s.pointersOk = true) {bs : List Byte} (hd : s.window = bs.map some)
    (hf : s.outLen.toNat + (hexEncode bs).length ≤ s.cap) :
    execHexenc s = .next (s.appended (hexEncode bs)).consumeInput.succeed := by
  rw [execHexenc, State.checked_ok h, hd, readAll_written]
  simp only [State.append_fits hf]
  rfl

theorem execHexenc_overflows (h : s.pointersOk = true) {bs : List Byte} (hd : s.window = bs.map some)
    (hf : s.cap < s.outLen.toNat + (hexEncode bs).length) : execHexenc s = .next (s.fail .outputOverflow) := by
  rw [execHexenc, State.checked_ok h, hd, readAll_written]
  simp only [State.append_overflows hf]
  rfl

theorem execHexenc_stopped (h : s.pointersOk = true) {bs : List Byte} {rest : List (Option Byte)}
    (hd : s.window = bs.map some ++ none :: rest) :
    execHexenc s = .fault (.uninitRead .ibuf (s.inPtr.toNat + bs.length)) := by
  rw [execHexenc, State.checked_ok h, hd, readAll_unwritten]
  rfl

theorem execLkcode_checked (h : s.pointersOk = true) :
    execLkcode s = .next (s.setLookup (lookupByCode s.value)).succeed := State.checked_ok h _

theorem execValid_checked (h : s.pointersOk = true) : execValid s = .next (s.setFound (isValid s.value)).succeed :=
  State.checked_ok h _

theorem execLkname_written (h : s.pointersOk = true) {k : List Byte} (hd : s.window = k.map some) :
    execLkname s = .next (s.setLookup (lookupByName s.config.nameTable k)).succeed := by
  rw [execLkname, State.checked_ok h, hd, readAll_written]
  rfl

theorem execLkname_stopped (h : s.pointersOk = true) {bs : List Byte} {rest : List (Option Byte)}
    (hd : s.window = bs.map some ++ none :: rest) :
    execLkname s = .fault (.uninitRead .ibuf (s.inPtr.toNat + bs.length)) := by
  rw [execLkname, State.checked_ok h, hd, readAll_unwritten]
  rfl

theorem execOut2in_written (h : s.pointersOk = true) {bs : List Byte} (hd : s.output = bs.map some) :
    execOut2in s = .next (s.moveToInput bs).succeed := by
  rw [execOut2in, State.checked_ok h, hd, readAll_written]
  rfl

theorem execOut2in_stopped (h : s.pointersOk = true) {bs : List Byte} {rest : List (Option Byte)}
    (hd : s.output = bs.map some ++ none :: rest) :
    execOut2in s = .fault (.uninitRead .obuf (0 + bs.length)) := by
  rw [execOut2in, State.checked_ok h, hd, readAll_unwritten]
  rfl

/-- The next states of the commands' rules, once nothing has stopped them: one per command (40_command_cycle.md R110). -/
inductive Effect (s : State) : Instr → State → Prop where
  | vdecraw {v : DWord} {c : Int} (h : decodeRaw s.window = .ok (v, c)) : Effect s .vdecraw (s.setDecoded v c).succeed
  | vdec {v : DWord} {c : Int} (h : decodeRaw s.window = .ok (v, c)) : Effect s .vdec (s.finishVdec v c)
  | venc (h : s.outLen.toNat + (encodeVarint s.value).length ≤ s.cap) :
      Effect s .venc (s.appended (encodeVarint s.value)).succeed
  | hexdec {ps : List (Byte × Byte)} {out : List Byte} (h : s.window = pairText ps) (ho : List.Forall₂ spells ps out)
      (hf : s.outLen.toNat + out.length ≤ s.cap) : Effect s .hexdec (s.appended out).consumeInput.succeed
  | hexenc {bs : List Byte} (h : s.window = bs.map some) (hf : s.outLen.toNat + (hexEncode bs).length ≤ s.cap) :
      Effect s .hexenc (s.appended (hexEncode bs)).consumeInput.succeed
  | lkcode : Effect s .lkcode (s.setLookup (lookupByCode s.value)).succeed
  | lkname {k : List Byte} (h : s.window = k.map some) :
      Effect s .lkname (s.setLookup (lookupByName s.config.nameTable k)).succeed
  | valid : Effect s .valid (s.setFound (isValid s.value)).succeed
  | out2in {bs : List Byte} (h : s.output = bs.map some) : Effect s .out2in (s.moveToInput bs).succeed

/-- Where a command stops: at a byte of its operand that holds no value (40_command_cycle.md R108). -/
structure StopsAt (s : State) (i : Instr) (b : Buffer) (k : Nat) : Prop where
  unwritten : (s.buffer b).read k = none
  operand   : (b = .ibuf ∧ s.inPtr.toNat ≤ k ∧ k < s.inLen.toNat ∧ i ∈ [.vdecraw, .vdec, .hexdec, .hexenc, .lkname]) ∨
    (b = .obuf ∧ k < s.outLen.toNat ∧ i = .out2in)

theorem StopsAt.of_window {s : State} {i : Instr} {k : Nat} (hp : s.pointersOk = true) (hk : s.window[k]? = some none)
    (hi : i ∈ [Instr.vdecraw, .vdec, .hexdec, .hexenc, .lkname]) : StopsAt s i .ibuf (s.inPtr.toNat + k) := by
  obtain ⟨h1, -, -⟩ := s.pointersOk_iff.1 hp
  have hlt : k < s.window.length := by
    by_contra hge
    rw [List.getElem?_eq_none (by omega)] at hk
    cases hk
  rw [s.length_window] at hlt
  rw [s.getElem?_window k hlt] at hk
  exact ⟨Option.some.inj hk, Or.inl ⟨rfl, by omega, by omega, hi⟩⟩

theorem StopsAt.of_output {s : State} {k : Nat} (hk : s.output[k]? = some none) : StopsAt s .out2in .obuf k := by
  have hlt : k < s.outLen.toNat := by
    by_contra hge
    rw [List.getElem?_eq_none (by rw [s.length_output]; omega)] at hk
    cases hk
  rw [s.getElem?_output _ hlt] at hk
  exact ⟨Option.some.inj hk, Or.inr ⟨rfl, hlt, rfl⟩⟩

theorem getElem?_first_unwritten (bs : List Byte) (rest : List (Option Byte)) :
    (bs.map some ++ none :: rest)[bs.length]? = some none := by
  rw [List.getElem?_append_right (by simp)]
  simp

/-- All a command can do: end with an error code and nothing else changed, stop at a byte of its operand that holds no
value, or have the effect of its rule (40_command_cycle.md R103, R106, R108, R110). -/
theorem exec_cases (i : Instr) (s : State) :
    (∃ e, e ≠ .ok ∧ (e = .badPointers ↔ s.pointersOk = false) ∧ exec i s = .next (s.fail e)) ∨
    (∃ b k, s.pointersOk = true ∧ exec i s = .fault (.uninitRead b k) ∧ StopsAt s i b k) ∨
    (s.pointersOk = true ∧ ∃ t, exec i s = .next t ∧ Effect s i t) := by
  cases hp : s.pointersOk with
  | false => exact Or.inl ⟨.badPointers, by decide, by simp, exec_badPointers hp i⟩
  | true =>
    have hat := getElem?_first_unwritten
    cases i with
    | vdecraw =>
      cases hd : decodeRaw s.window with
      | ok r => exact Or.inr (Or.inr ⟨rfl, _, execVdecraw_decoded hp hd, .vdecraw hd⟩)
      | error e =>
        obtain ⟨bs, rest, hl, rfl⟩ := decodeRaw_error hd
        exact Or.inr (Or.inl ⟨_, _, rfl, execVdecraw_stopped hp hd, .of_window hp (hl ▸ hat bs rest) (by simp)⟩)
    | vdec =>
      cases hd : decodeRaw s.window with
      | ok r => exact Or.inr (Or.inr ⟨rfl, _, execVdec_decoded hp hd, .vdec hd⟩)
      | error e =>
        obtain ⟨bs, rest, hl, rfl⟩ := decodeRaw_error hd
        exact Or.inr (Or.inl ⟨_, _, rfl, execVdec_stopped hp hd, .of_window hp (hl ▸ hat bs rest) (by simp)⟩)
    | venc =>
      rcases s.append_cases (encodeVarint s.value) with ⟨hf, -⟩ | ⟨hf, -⟩
      · exact Or.inr (Or.inr ⟨rfl, _, execVenc_fits hp hf, .venc hf⟩)
      · exact Or.inl ⟨_, by decide, by simp, execVenc_overflows hp hf⟩
    | hexdec =>
      rcases hexDecode_cases s.window with ⟨ps, out, hps, hl, hd⟩ | hd | ⟨k, hk, hd⟩
      · rcases s.append_cases out with ⟨hf, -⟩ | ⟨hf, -⟩
        · exact Or.inr (Or.inr ⟨rfl, _, execHexdec_fits hp hd hf, .hexdec hl hps hf⟩)
        · exact Or.inl ⟨_, by decide, by simp, execHexdec_overflows hp hd hf⟩
      · exact Or.inl ⟨_, by decide, by simp, execHexdec_failed hp hd⟩
      · exact Or.inr (Or.inl ⟨_, _, rfl, execHexdec_stopped hp hd, .of_window hp hk (by simp)⟩)
    | hexenc =>
      rcases written_or_unwritten s.window with ⟨bs, hl⟩ | ⟨bs, rest, hl⟩
      · rcases s.append_cases (hexEncode bs) with ⟨hf, -⟩ | ⟨hf, -⟩
        · exact Or.inr (Or.inr ⟨rfl, _, execHexenc_fits hp hl hf, .hexenc hl hf⟩)
        · exact Or.inl ⟨_, by decide, by simp, execHexenc_overflows hp hl hf⟩
      · exact Or.inr (Or.inl ⟨_, _, rfl, execHexenc_stopped hp hl, .of_window hp (hl ▸ hat bs rest) (by simp)⟩)
    | lkcode => exact Or.inr (Or.inr ⟨rfl, _, execLkcode_checked hp, .lkcode⟩)
    | lkname =>
      rcases written_or_unwritten s.window with ⟨bs, hl⟩ | ⟨bs, rest, hl⟩
      · exact Or.inr (Or.inr ⟨rfl, _, execLkname_written hp hl, .lkname hl⟩)
      · exact Or.inr (Or.inl ⟨_, _, rfl, execLkname_stopped hp hl, .of_window hp (hl ▸ hat bs rest) (by simp)⟩)
    | valid => exact Or.inr (Or.inr ⟨rfl, _, execValid_checked hp, .valid⟩)
    | out2in =>
      rcases written_or_unwritten s.output with ⟨bs, hl⟩ | ⟨bs, rest, hl⟩
      · exact Or.inr (Or.inr ⟨rfl, _, execOut2in_written hp hl, .out2in hl⟩)
      · have he := execOut2in_stopped hp hl
        rw [Nat.zero_add] at he
        exact Or.inr (Or.inl ⟨_, _, rfl, he, .of_output (hl ▸ hat bs rest)⟩)

/-- All a next state of a command can be (40_command_cycle.md R106, R110). -/
theorem exec_next {i : Instr} {s t : State} (h : exec i s = .next t) :
    (∃ e, e ≠ .ok ∧ (e = .badPointers ↔ s.pointersOk = false) ∧ t = s.fail e) ∨ (s.pointersOk = true ∧ Effect s i t) := by
  rcases exec_cases i s with ⟨e, he, hb, hx⟩ | ⟨b, k, -, hx, -⟩ | ⟨hp, u, hx, hu⟩ <;> rw [hx] at h <;> cases h
  · exact Or.inl ⟨e, he, hb, rfl⟩
  · exact Or.inr ⟨hp, hu⟩

/-- All a fault of a command can be (40_command_cycle.md R108). -/
theorem exec_fault {i : Instr} {s : State} {f : Fault} (h : exec i s = .fault f) :
    ∃ b k, f = .uninitRead b k ∧ s.pointersOk = true ∧ StopsAt s i b k := by
  rcases exec_cases i s with ⟨e, he, hb, hx⟩ | ⟨b, k, hp, hx, hs⟩ | ⟨hp, u, hx, hu⟩ <;> rw [hx] at h <;> cases h
  exact ⟨b, k, rfl, hp, hs⟩

/-- No command is refused (60_exceptions.md R214). -/
theorem exec_not_refused (i : Instr) (s : State) (r : Refusal) : exec i s ≠ .refused r := by
  intro h
  rcases exec_cases i s with ⟨e, he, hb, hx⟩ | ⟨b, k, hp, hx, hs⟩ | ⟨hp, u, hx, hu⟩ <;> rw [hx] at h <;> cases h

/-- What no command touches (30_encoding.md R71; STATUS.OVR by 10_state.md R28). -/
theorem exec_untouched {i : Instr} {s t : State} (h : exec i s = .next t) :
    t.cmdLatch = s.cmdLatch ∧ t.busy = s.busy ∧ t.done = s.done ∧ t.ovr = s.ovr ∧ t.inReset = s.inReset ∧
      t.config = s.config ∧ t.host = s.host ∧ t.turns = s.turns ∧ t.delays = s.delays ∧ t.draws = s.draws := by
  rcases exec_next h with ⟨e, -, -, rfl⟩ | ⟨-, hu⟩
  · exact ⟨rfl, rfl, rfl, rfl, rfl, rfl, rfl, rfl, rfl, rfl⟩
  · cases hu with
    | vdec hd =>
      rename_i v c
      rcases finishVdec_cases s v c with ⟨-, he⟩ | ⟨-, he⟩ | ⟨-, he⟩ <;> rw [he] <;> simp
    | _ => simp [State.appended]

end Sys2Proof.Machine
end

