-- ==== Sys2Proof/Laws/Cycle.lean ====
section
/-! SUPPORT. All a completion, a move of the host and a step can do. -/

namespace Sys2Proof.Machine

theorem onNext_eq_next {f : State → State} {r : Result} {t : State} (h : onNext f r = .next t) :
    ∃ u, r = .next u ∧ t = f u := by
  match r, h with
  | .next u, h => cases h; exact ⟨u, rfl, rfl⟩
  | .fault _, h => cases h
  | .refused _, h => cases h

theorem onNext_eq_fault {f : State → State} {r : Result} {e : Fault} (h : onNext f r = .fault e) : r = .fault e := by
  match r, h with
  | .next _, h => cases h
  | .fault _, h => cases h; rfl
  | .refused _, h => cases h

theorem onNext_eq_refused {f : State → State} {r : Result} {e : Refusal} (h : onNext f r = .refused e) :
    r = .refused e := by
  match r, h with
  | .next _, h => cases h
  | .fault _, h => cases h
  | .refused _, h => cases h; rfl

/-- All a completion that answers a next state can do: end an illegal word, or run a command (40_command_cycle.md R101,
R102, R110). -/
theorem complete_next {s t : State} (h : complete s = .next t) :
    (t = (s.fail .illegalCommand).completed) ∨ ∃ i u, exec i s = .next u ∧ t = u.completed := by
  obtain ⟨u, hu, rfl⟩ := onNext_eq_next h
  unfold execWord at hu
  cases hd : decode s.cmdLatch with
  | ok i => rw [hd] at hu; exact Or.inr ⟨i, u, hu, rfl⟩
  | error e => rw [hd] at hu; cases hu; exact Or.inl rfl

theorem complete_fault {s : State} {f : Fault} (h : complete s = .fault f) : ∃ i, exec i s = .fault f := by
  have hu := onNext_eq_fault h
  unfold execWord at hu
  cases hd : decode s.cmdLatch with
  | ok i => rw [hd] at hu; exact ⟨i, hu⟩
  | error e => rw [hd] at hu; cases hu

theorem complete_not_refused (s : State) (r : Refusal) : complete s ≠ .refused r := by
  intro h
  have hu := onNext_eq_refused h
  unfold execWord at hu
  cases hd : decode s.cmdLatch with
  | ok i => rw [hd] at hu; exact exec_not_refused i s r hu
  | error e => rw [hd] at hu; cases hu

/-- A state whose host part alone may differ. -/
def State.withHost (s : State) (h : HostAgent) : State := { s with host := h }

theorem State.runLine_block (s : State) (l : HostLine) : ∃ h, s.runLine l = s.withHost h := by
  cases l with
  | ifGoto c l =>
    rw [State.runLine]
    split_ifs <;> exact ⟨_, rfl⟩
  | _ => exact ⟨_, rfl⟩

theorem State.receive_block (s : State) (op : BusOp) (r : Response) : ∃ h, s.receive op r = s.withHost h := by
  unfold State.receive
  split
  · exact ⟨_, rfl⟩
  · exact ⟨_, rfl⟩
  · split_ifs <;> exact ⟨_, rfl⟩
  · exact ⟨_, rfl⟩

/-- What the host keeps of any response: its program and its position; the response itself, and whether a bus error has
come in this line; and, but for a `wait`, the accesses left (20_memory.md R54). -/
theorem State.receive_host (s : State) (op : BusOp) (r : Response) :
    (s.receive op r).host.program = s.host.program ∧ (s.receive op r).host.pos = s.host.pos ∧
    (s.receive op r).host.resp = some r ∧ (s.receive op r).host.failed = (s.host.failed || decide (r = .busError)) ∧
    ((∀ a, op ≠ .poll a) → (s.receive op r).host.queue = s.host.queue) := by
  unfold State.receive
  split
  · exact ⟨rfl, rfl, rfl, rfl, fun _ => rfl⟩
  · exact ⟨rfl, rfl, rfl, rfl, fun _ => rfl⟩
  · rename_i a v
    split_ifs
    · exact ⟨rfl, rfl, rfl, rfl, fun h => absurd rfl (h a)⟩
    · exact ⟨rfl, rfl, rfl, rfl, fun _ => rfl⟩
  · exact ⟨rfl, rfl, rfl, rfl, fun _ => rfl⟩

/-- An access touches neither the host's own state nor the parameters nor the plan of moves. -/
theorem State.access_keeps (s : State) (a : Access) :
    (s.access a).1.host = s.host ∧ (s.access a).1.config = s.config ∧ (s.access a).1.turns = s.turns ∧
      (s.access a).1.delays = s.delays := by
  rcases s.access_effect a with ⟨k, h⟩ | ⟨-, h⟩ | ⟨-, -, r, w, -, h⟩ | ⟨-, b, i, n, w, -, h⟩ <;> rw [h]
  · exact ⟨rfl, rfl, rfl, rfl⟩
  · exact ⟨rfl, rfl, rfl, rfl⟩
  · cases r <;> exact ⟨rfl, rfl, rfl, rfl⟩
  · cases b <;> exact ⟨rfl, rfl, rfl, rfl⟩

/-- All a move of the host can do: change its own state, or make the first access of its queue and then change its own
state. -/
theorem State.hostTurn_cases (s : State) :
    (∃ h, s.hostTurn = s.withHost h) ∨
      ∃ op rest h, s.host.queue = op :: rest ∧ s.hostTurn = (((s.enqueue rest).access op.access).1).withHost h := by
  unfold State.hostTurn
  split
  · rename_i op rest hq
    right
    obtain ⟨h, hh⟩ := State.receive_block ((s.enqueue rest).access op.access).1 op ((s.enqueue rest).access op.access).2
    exact ⟨op, rest, h, hq, hh⟩
  · left
    split
    · exact s.runLine_block _
    · exact ⟨s.host, rfl⟩

/-- All a step that answers a next state can do, by who moves. -/
theorem step_next {s t : State} (h : step s = .next t) :
    (s.nextTurn.1 = .host ∧ t = s.nextTurn.2.hostTurn) ∨
    (s.nextTurn.1 = .block ∧ s.nextTurn.2.blockReady = true ∧ complete s.nextTurn.2 = .next t) ∨
    (s.nextTurn.1 = .block ∧ s.nextTurn.2.blockReady = false ∧ t = s.nextTurn.2) ∨
    (s.nextTurn.1 = .assertReset ∧ t = s.nextTurn.2.assertReset) ∨
    (s.nextTurn.1 = .releaseReset ∧ t = s.nextTurn.2.releaseReset) := by
  unfold step move takeTurn blockTurn at h
  cases ht : s.nextTurn.1 with
  | host => rw [ht] at h; cases h; simp
  | block =>
    rw [ht] at h
    cases hb : s.nextTurn.2.blockReady with
    | true =>
      rw [hb] at h
      exact Or.inr (Or.inl ⟨rfl, rfl, h⟩)
    | false =>
      rw [hb] at h
      cases h
      simp
  | assertReset => rw [ht] at h; cases h; simp
  | releaseReset => rw [ht] at h; cases h; simp

/-- A step faults only in a completion. -/
theorem step_fault {s : State} {f : Fault} (h : step s = .fault f) :
    s.nextTurn.1 = .block ∧ s.nextTurn.2.blockReady = true ∧ ∃ i, exec i s.nextTurn.2 = .fault f := by
  unfold step move takeTurn blockTurn at h
  cases ht : s.nextTurn.1 with
  | block =>
    rw [ht] at h
    cases hb : s.nextTurn.2.blockReady with
    | true =>
      rw [hb] at h
      exact ⟨rfl, rfl, complete_fault h⟩
    | false => rw [hb] at h; cases h
  | host => rw [ht] at h; cases h
  | assertReset => rw [ht] at h; cases h
  | releaseReset => rw [ht] at h; cases h

theorem step_not_refused (s : State) (r : Refusal) : step s ≠ .refused r := by
  intro h
  unfold step move takeTurn blockTurn at h
  cases ht : s.nextTurn.1 with
  | block =>
    rw [ht] at h
    cases hb : s.nextTurn.2.blockReady with
    | true => rw [hb] at h; exact complete_not_refused _ _ h
    | false => rw [hb] at h; cases h
  | host => rw [ht] at h; cases h
  | assertReset => rw [ht] at h; cases h
  | releaseReset => rw [ht] at h; cases h

/-- All a refill can do: plan the pending command's completion after a free number of host steps, or one host step. -/
theorem State.refill_cases (s : State) :
    (s.blockReady = true ∧ s.refill =
      { s with turns := List.replicate (Config.delay s.delays) .host ++ [.block], delays := s.delays + 1 }) ∨
    (s.blockReady = false ∧ s.refill = { s with turns := [.host] }) := by
  unfold State.refill
  split_ifs with h
  · exact Or.inl ⟨h, rfl⟩
  · exact Or.inr ⟨by simpa using h, rfl⟩

theorem State.planned_nil {s : State} (h : s.turns = []) : s.planned = s.refill := if_pos h

theorem State.planned_cons {s : State} {m : Turn} {rest : List Turn} (h : s.turns = m :: rest) : s.planned = s :=
  if_neg (by simp [h])

/-- There is always a next move. -/
theorem State.planned_ne_nil (s : State) : s.planned.turns ≠ [] := by
  cases hq : s.turns with
  | nil => rcases s.refill_cases with ⟨-, h⟩ | ⟨-, h⟩ <;> rw [State.planned_nil hq, h] <;> simp
  | cons m rest => simp [State.planned_cons hq, hq]

/-- Planning touches the plan alone. -/
theorem State.planned_state (s : State) : ∃ ts n, s.planned = { s with turns := ts, delays := n } := by
  cases hq : s.turns with
  | nil => rcases s.refill_cases with ⟨-, h⟩ | ⟨-, h⟩ <;> rw [State.planned_nil hq, h] <;> exact ⟨_, _, rfl⟩
  | cons m rest => exact ⟨_, _, State.planned_cons hq⟩

/-- The next move a list names. -/
theorem State.nextTurn_cons {s : State} {m : Turn} {rest : List Turn} (h : s.turns = m :: rest) :
    s.nextTurn = (m, { s with turns := rest }) := by
  simp [State.nextTurn, State.planned_cons h, h]

/-- Taking the next move touches the plan alone. -/
theorem State.nextTurn_state (s : State) : ∃ ts n, s.nextTurn.2 = { s with turns := ts, delays := n } := by
  obtain ⟨ts, n, h⟩ := s.planned_state
  exact ⟨s.planned.turns.tail, n, by rw [State.nextTurn, h]⟩

@[simp] theorem State.nextTurn_cmdLatch (s : State) : s.nextTurn.2.cmdLatch = s.cmdLatch := by
  obtain ⟨_, _, h⟩ := s.nextTurn_state
  rw [h]
@[simp] theorem State.nextTurn_busy (s : State) : s.nextTurn.2.busy = s.busy := by
  obtain ⟨_, _, h⟩ := s.nextTurn_state
  rw [h]
@[simp] theorem State.nextTurn_done (s : State) : s.nextTurn.2.done = s.done := by
  obtain ⟨_, _, h⟩ := s.nextTurn_state
  rw [h]
@[simp] theorem State.nextTurn_found (s : State) : s.nextTurn.2.found = s.found := by
  obtain ⟨_, _, h⟩ := s.nextTurn_state
  rw [h]
@[simp] theorem State.nextTurn_ovr (s : State) : s.nextTurn.2.ovr = s.ovr := by
  obtain ⟨_, _, h⟩ := s.nextTurn_state
  rw [h]
@[simp] theorem State.nextTurn_err (s : State) : s.nextTurn.2.err = s.err := by
  obtain ⟨_, _, h⟩ := s.nextTurn_state
  rw [h]
@[simp] theorem State.nextTurn_value (s : State) : s.nextTurn.2.value = s.value := by
  obtain ⟨_, _, h⟩ := s.nextTurn_state
  rw [h]
@[simp] theorem State.nextTurn_count (s : State) : s.nextTurn.2.count = s.count := by
  obtain ⟨_, _, h⟩ := s.nextTurn_state
  rw [h]
@[simp] theorem State.nextTurn_inPtr (s : State) : s.nextTurn.2.inPtr = s.inPtr := by
  obtain ⟨_, _, h⟩ := s.nextTurn_state
  rw [h]
@[simp] theorem State.nextTurn_inLen (s : State) : s.nextTurn.2.inLen = s.inLen := by
  obtain ⟨_, _, h⟩ := s.nextTurn_state
  rw [h]
@[simp] theorem State.nextTurn_outLen (s : State) : s.nextTurn.2.outLen = s.outLen := by
  obtain ⟨_, _, h⟩ := s.nextTurn_state
  rw [h]
@[simp] theorem State.nextTurn_funcId (s : State) : s.nextTurn.2.funcId = s.funcId := by
  obtain ⟨_, _, h⟩ := s.nextTurn_state
  rw [h]
@[simp] theorem State.nextTurn_funcCode (s : State) : s.nextTurn.2.funcCode = s.funcCode := by
  obtain ⟨_, _, h⟩ := s.nextTurn_state
  rw [h]
@[simp] theorem State.nextTurn_ibuf (s : State) : s.nextTurn.2.ibuf = s.ibuf := by
  obtain ⟨_, _, h⟩ := s.nextTurn_state
  rw [h]
@[simp] theorem State.nextTurn_obuf (s : State) : s.nextTurn.2.obuf = s.obuf := by
  obtain ⟨_, _, h⟩ := s.nextTurn_state
  rw [h]
@[simp] theorem State.nextTurn_inReset (s : State) : s.nextTurn.2.inReset = s.inReset := by
  obtain ⟨_, _, h⟩ := s.nextTurn_state
  rw [h]
@[simp] theorem State.nextTurn_config (s : State) : s.nextTurn.2.config = s.config := by
  obtain ⟨_, _, h⟩ := s.nextTurn_state
  rw [h]
@[simp] theorem State.nextTurn_host (s : State) : s.nextTurn.2.host = s.host := by
  obtain ⟨_, _, h⟩ := s.nextTurn_state
  rw [h]
@[simp] theorem State.nextTurn_draws (s : State) : s.nextTurn.2.draws = s.draws := by
  obtain ⟨_, _, h⟩ := s.nextTurn_state
  rw [h]

/-- A step is a step of the state with its plan made. -/
theorem step_planned (s : State) : step s = step s.planned := by
  obtain ⟨m, rest, h⟩ := List.exists_cons_of_ne_nil s.planned_ne_nil
  unfold step move
  rw [State.nextTurn, State.nextTurn, State.planned_cons h]

/-- A block that has a step completes when the plan says so (40_command_cycle.md R101). -/
theorem step_block {s : State} {rest : List Turn} (hb : s.blockReady = true) (ht : s.turns = .block :: rest) :
    step s = complete { s with turns := rest } := by
  unfold step move takeTurn blockTurn
  rw [State.nextTurn_cons ht]
  exact if_pos hb

/-- A run of one step more, by what the first step answers. -/
theorem run_succ_next {M : Host.Core} {s t : M.State} (h : M.step s = .next t) (k : Nat) :
    M.run (k + 1) s = M.run k t := by
  rw [Host.Core.run, h]

theorem run_succ_fault {M : Host.Core} {s : M.State} {f : M.Fault} (h : M.step s = .fault f) (k : Nat) :
    M.run (k + 1) s = .fault f := by
  rw [Host.Core.run, h]

theorem State.hostTurn_access {s : State} {op : BusOp} {rest : List BusOp} (h : s.host.queue = op :: rest) :
    s.hostTurn = (s.enqueue rest).perform op := by
  rw [State.hostTurn, h]

theorem State.hostTurn_line {s : State} {l : HostLine} (h : s.host.queue = [])
    (hl : s.host.program[s.host.pos]? = some l) : s.hostTurn = s.runLine l := by
  rw [State.hostTurn, h]
  simp only [hl]

/-- A step the list gives to the host. -/
theorem step_host {s : State} {rest : List Turn} (h : s.turns = .host :: rest) :
    step s = .next (State.hostTurn { s with turns := rest }) := by
  unfold step move takeTurn
  rw [State.nextTurn_cons h]

/-- All a move of the host can do to the block, whatever it does to its own state. -/
theorem State.hostTurn_effect (s : State) : ∃ h u, s.hostTurn = State.withHost u h ∧
    ((∃ k, u = s.drawn k) ∨ (s.busy = true ∧ u = s.writeOverrun) ∨
    (s.busy = false ∧ s.inReset = false ∧ ∃ r w rest,
      s.host.queue = .write (s.config.base + r.offset) .four w :: rest ∧ u = s.writeReg r w) ∨
    (s.busy = false ∧ ∃ b i n w, i + n.bytes ≤ s.cap ∧
      u = s.setBuffer b ((s.buffer b).writeBytes i (bytesOfWord w (Size.bytes n))))) := by
  rcases s.hostTurn_cases with ⟨h, hh⟩ | ⟨op, rest, h, hq, hh⟩
  · exact ⟨h, s.drawn 0, hh, Or.inl ⟨0, rfl⟩⟩
  · rcases (s.enqueue rest).access_effect op.access with
      ⟨k, hk⟩ | ⟨hb, hk⟩ | ⟨hb, hr, r, w, ha, hk⟩ | ⟨hb, b, i, n, w, hi, hk⟩
    · exact ⟨h, s.drawn k, by rw [hh, hk]; rfl, Or.inl ⟨k, rfl⟩⟩
    · exact ⟨h, s.writeOverrun, by rw [hh, hk]; rfl, Or.inr (Or.inl ⟨hb, rfl⟩)⟩
    · refine ⟨h, s.writeReg r w, ?_, Or.inr (Or.inr (Or.inl ⟨hb, hr, r, w, rest, ?_, rfl⟩))⟩
      · rw [hh, hk]
        cases r <;> rfl
      · rw [hq]
        cases op <;> simp only [BusOp.access, reduceCtorEq] at ha
        simp only [Access.write.injEq] at ha
        obtain ⟨h1, rfl, rfl⟩ := ha
        rw [h1]
        rfl
    · refine ⟨h, s.setBuffer b ((s.buffer b).writeBytes i (bytesOfWord w (Size.bytes n))), ?_,
        Or.inr (Or.inr (Or.inr ⟨hb, b, i, n, w, hi, rfl⟩))⟩
      rw [hh, hk]
      cases b <;> rfl

end Sys2Proof.Machine
end

