-- ==== Sys2Proof/Laws/Decode.lean ====
section
/-! SUPPORT. What the decoder of command words can answer. -/

namespace Sys2Proof

theorem commandOf_eq_some {op : Byte} {i : Instr} : commandOf op = some i ↔ op = opcode i := by
  revert op
  cases i <;> decide

/-- A word is its two fields. -/
theorem word_eq_fields (w : Word) : w = rsvField w ++ opField w := by
  apply BitVec.eq_of_getLsbD_eq
  intro i hi
  unfold rsvField opField
  rw [BitVec.getLsbD_append]
  by_cases h : i < 8
  · simp [h]
  · have h2 : i - 8 < 24 := by omega
    simp only [h, h2, if_false, BitVec.getLsbD_extractLsb', decide_true, Bool.true_and]
    rw [show 8 + (i - 8) = i by omega]

/-- All a decoded word can be (30_encoding.md R74). -/
theorem decode_eq_ok {w : Word} {i : Instr} : decode w = .ok i ↔ rsvField w = 0 ∧ opField w = opcode i := by
  rw [← commandOf_eq_some]
  unfold decode
  split_ifs with h
  · simp only [false_iff]
    exact fun hc => h hc.1
  · rw [not_not] at h
    simp only [h, true_and]
    cases commandOf (opField w) <;> simp

end Sys2Proof
end

