-- ==== Sys2Proof/Laws/PerInstr.lean ====
section
/-! SUPPORT. What holds of each command as syntax, one lemma per constructor of Instr. -/

namespace Sys2Proof.Laws.CanonicalWord

/-- The word of a command has RSV = 0 and its opcode in 0x01 to 0x09, and it is the word of no other command
(30_encoding.md R70, R72, R73). -/
def Statement (i : Instr) : Prop :=
  rsvField (encode i) = 0 ∧ opField (encode i) = opcode i ∧ legalWord (encode i) = true ∧
    ∀ j : Instr, encode j = encode i → j = i

theorem vdecraw : Statement .vdecraw := ⟨by decide, by decide, by decide, by intro j; cases j <;> decide⟩
theorem vdec : Statement .vdec := ⟨by decide, by decide, by decide, by intro j; cases j <;> decide⟩
theorem venc : Statement .venc := ⟨by decide, by decide, by decide, by intro j; cases j <;> decide⟩
theorem hexdec : Statement .hexdec := ⟨by decide, by decide, by decide, by intro j; cases j <;> decide⟩
theorem hexenc : Statement .hexenc := ⟨by decide, by decide, by decide, by intro j; cases j <;> decide⟩
theorem lkcode : Statement .lkcode := ⟨by decide, by decide, by decide, by intro j; cases j <;> decide⟩
theorem lkname : Statement .lkname := ⟨by decide, by decide, by decide, by intro j; cases j <;> decide⟩
theorem valid : Statement .valid := ⟨by decide, by decide, by decide, by intro j; cases j <;> decide⟩
theorem out2in : Statement .out2in := ⟨by decide, by decide, by decide, by intro j; cases j <;> decide⟩

end Sys2Proof.Laws.CanonicalWord
end

