-- ==== Sys2Proof/Laws/Registry.lean ====
section
/-! SUPPORT. What the registry's lookups can answer. -/

namespace Sys2Proof

theorem HashId.mem_all (h : HashId) : h ∈ HashId.all := by cases h <;> decide

theorem lookupByCode_code (h : HashId) : lookupByCode h.code = some h := by cases h <;> decide

/-- All a lookup by code can answer: the row whose code is `c`, or none when no row's is (43_registry.md R171). -/
theorem lookupByCode_eq_some {c : DWord} {h : HashId} : lookupByCode c = some h ↔ c = h.code := by
  constructor
  · intro hf
    have := List.find?_some hf
    simpa using (beq_iff_eq.1 this).symm
  · rintro rfl
    exact lookupByCode_code h

theorem lookupByCode_eq_none {c : DWord} : lookupByCode c = none ↔ ∀ h : HashId, c ≠ h.code := by
  constructor
  · intro hn h hc
    rw [lookupByCode_eq_some.2 hc] at hn
    cases hn
  · intro hn
    cases ho : lookupByCode c with
    | none => rfl
    | some h => exact absurd (lookupByCode_eq_some.1 ho) (hn h)

theorem lookupByName_none {t : List (List Byte × HashId)} {k : List Byte} (h : ∀ p ∈ t, p.1 ≠ k) :
    lookupByName t k = none := by
  induction t with
  | nil => rfl
  | cons p t ih =>
    obtain ⟨n, i⟩ := p
    rw [lookupByName, if_neg (h (n, i) (by simp))]
    exact ih (fun q hq => h q (List.mem_cons_of_mem _ hq))

/-- In a table with no two equal names, a name's lookup is its own identifier (43_registry.md R174, R175). -/
theorem lookupByName_mem {t : List (List Byte × HashId)} {k : List Byte} {i : HashId}
    (hn : (t.map (fun p => p.1)).Nodup) (h : (k, i) ∈ t) : lookupByName t k = some i := by
  induction t with
  | nil => cases h
  | cons p t ih =>
    obtain ⟨n, j⟩ := p
    rw [List.map_cons, List.nodup_cons] at hn
    rcases List.mem_cons.1 h with he | ht
    · cases he
      rw [lookupByName, if_pos rfl]
    · have : n ≠ k := fun e => hn.1 (List.mem_map.2 ⟨(k, i), ht, e.symm⟩)
      rw [lookupByName, if_neg this]
      exact ih hn.2 ht

end Sys2Proof
end

