-- ==== Sys2Proof/Tests/Slice0.lean ====
section
/-! SUPPORT. The model's own tests: the command words bit by bit, ill-formed terms refused, one step of each command on a
vector of 95_test_vectors.md, and a witness for each statement that has hypotheses. Expected results are the vectors'. -/

namespace Sys2Proof.Tests

open Sys2Proof.Machine

/-- A machine after reset with its input window and its output bytes written. -/
def loaded (inp out : List Byte) : State :=
  { State.reset with ibuf := Memory.writeBytes [] 0 inp, inLen := BitVec.ofNat 16 inp.length,
                     obuf := Memory.writeBytes [] 0 out, outLen := BitVec.ofNat 16 out.length }

/-- The machine after reset with VALUE set. -/
def withValue (v : DWord) : State := { State.reset with value := v }

/-- The machine after reset with IN_LEN set and no byte written. -/
def unwritten (n : Half) : State := { State.reset with inLen := n }

/-- A field of a next state. -/
def field {α : Type} (f : State → α) : Result → Option α
  | .next t => some (f t)
  | .fault _ => none
  | .refused _ => none

/-- The fault of a stopped step. -/
def faultOf : Result → Option Fault
  | .next _ => none
  | .fault f => some f
  | .refused _ => none

/-- What a decode leaves: VALUE, COUNT, ERR, IN_PTR. -/
def decoded (t : State) : DWord × Int × ErrCode × Nat := (t.value, t.count.toInt, t.err, t.inPtr.toNat)

/-- What an appending command leaves: OBUF, OUT_LEN, ERR, IN_PTR. -/
def produced (t : State) : Memory × Nat × ErrCode × Nat := (t.obuf, t.outLen.toNat, t.err, t.inPtr.toNat)

/-- What a lookup leaves: FOUND, FUNC_ID, FUNC_CODE, ERR. -/
def lookedUp (t : State) : Bool × Nat × DWord × ErrCode := (t.found, t.funcId.toNat, t.funcCode, t.err)

/-- Nine continuation bytes and a terminal byte. -/
def ten (b : Byte) : List Byte := List.replicate 9 0x80 ++ [b]

-- ---- The words of 30_encoding.md R70 and R72 ----

theorem test_word_vdecraw : decode 0b00000000000000000000000000000001#32 = .ok .vdecraw := by decide
theorem test_word_vdec : decode 0b00000000000000000000000000000010#32 = .ok .vdec := by decide
theorem test_word_venc : decode 0b00000000000000000000000000000011#32 = .ok .venc := by decide
theorem test_word_hexdec : decode 0b00000000000000000000000000000100#32 = .ok .hexdec := by decide
theorem test_word_hexenc : decode 0b00000000000000000000000000000101#32 = .ok .hexenc := by decide
theorem test_word_lkcode : decode 0b00000000000000000000000000000110#32 = .ok .lkcode := by decide
theorem test_word_lkname : decode 0b00000000000000000000000000000111#32 = .ok .lkname := by decide
theorem test_word_valid : decode 0b00000000000000000000000000001000#32 = .ok .valid := by decide
theorem test_word_out2in : decode 0b00000000000000000000000000001001#32 = .ok .out2in := by decide

/-- The bytes of a word are in the host bus's order (20_memory.md R51), and the table's numbering is the word's. -/
theorem test_table_word : decodeTableWord 32 0x09 = some .out2in ∧ decodeTableWord 32 0x0100 = none ∧
    decodeTableWord 32 0x0A = none := by decide

/-- The step after withFetchWord runs the command as the first after reset: VALID of VALUE 0 finds ID (V-R1). -/
theorem test_first_step : field lookedUp (step (State.reset.withFetchWord 32 0x08)) = some (true, 31, 0, .ok) := by decide

-- ---- Ill-formed terms are refused ----

theorem test_illegal_words : legalWord 0x00 = false ∧ legalWord 0x0A = false ∧ legalWord 0xFF = false ∧
    legalWord 0x0102 = false ∧ legalWord 0x80000002 = false ∧ legalWord 0x01 = true ∧ legalWord 0x09 = true := by decide

theorem test_bufcap_zero : Config.wf ⟨0, [], 0⟩ = false ∧ Config.wf ⟨1, [], 0⟩ = true := by decide

theorem test_base_misaligned : Config.wf ⟨1, [], 0x20000⟩ = false ∧ Config.wf ⟨1, [], 0x40000⟩ = true := by decide

theorem test_name_empty : Config.wf ⟨1, [([], .sha1)], 0⟩ = false := by decide

theorem test_name_uppercase : Config.wf ⟨1, [([0x53], .sha1)], 0⟩ = false := by decide

theorem test_name_twice : Config.wf ⟨1, [([0x61], .sha1), ([0x61], .x11)], 0⟩ = false := by decide

theorem test_label_missing : programWf [.goto ['a']] = false ∧ programWf [.label ['a'], .goto ['a']] = true := by decide

theorem test_label_twice : programWf [.label ['a'], .label ['a'], .goto ['a']] = false := by decide

theorem test_text_not_ascii : programWf [.wrs .ibuf (.num 0) ['é']] = false ∧
    programWf [.wrs .ibuf (.num 0) ['e']] = true := by decide

-- ---- One step of each command (95_test_vectors.md) ----

/-- V-D27: the trailing `ff` is not read; V-D33: VDECRAW does not advance. -/
theorem test_varint_ac02 : field decoded (exec .vdec (loaded [0xAC, 0x02, 0xFF] [])) = some (300, 2, .ok, 2) ∧
    field decoded (exec .vdecraw (loaded [0xAC, 0x02] [])) = some (300, 2, .ok, 0) := by decide

/-- V-D13, V-D15 and V-D32: the overflow boundary at index 9. -/
theorem test_varint_boundary : field decoded (exec .vdec (loaded (ten 1) [])) = some (0x8000000000000000, 10, .ok, 10) ∧
    field decoded (exec .vdec (loaded (ten 2) [])) = some (0, -10, .varintTooLong, 0) ∧
    field decoded (exec .vdecraw (loaded (ten 2) [])) = some (0, -10, .ok, 0) := by decide

/-- V-D19: a terminal byte 0 at index 10 overflows. -/
theorem test_vdec_index_ten :
    field decoded (exec .vdec (loaded (0x80 :: ten 0) [])) = some (0, -11, .varintTooLong, 0) := by decide

/-- V-V10 and V-V18. -/
theorem test_venc : field produced (exec .venc (withValue 0x1100)) = some ([(0, 0x80), (1, 0x22)], 2, .ok, 0) ∧
    field produced (exec .venc { loaded [] [0xAA, 0xBB, 0xCC] with value := 1 }) =
      some ([(0, 0xAA), (1, 0xBB), (2, 0xCC), (3, 0x01)], 4, .ok, 0) := by decide

/-- V-V20. -/
theorem test_venc_overflow :
    field produced (exec .venc { withValue 0x80 with outLen := 1023 }) = some ([], 1023, .outputOverflow, 0) := by decide

/-- V-H5 "AbCdEf". -/
theorem test_hexdec : field produced (exec .hexdec (loaded (ascii ['A', 'b', 'C', 'd', 'E', 'f']) [])) =
    some ([(0, 0xAB), (1, 0xCD), (2, 0xEF)], 3, .ok, 6) := by decide

/-- V-H18: the text is decoded before the capacity is looked at; V-H19: odd length before any byte is read. -/
theorem test_hexdec_order :
    field State.err (exec .hexdec { loaded (ascii ['0', 'g']) [] with outLen := 1024 }) = some .invalidInput ∧
    field State.err (exec .hexdec (unwritten 3)) = some .invalidInput := by decide

/-- V-X5. -/
theorem test_hexenc : field produced (exec .hexenc (loaded [0x8A, 0x17] [])) =
    some ([(0, 0x38), (1, 0x61), (2, 0x31), (3, 0x37)], 4, .ok, 2) := by decide

/-- V-X10. -/
theorem test_hexenc_overflow : field produced (exec .hexenc { loaded [0x00] [] with outLen := 1023 }) =
    some ([], 1023, .outputOverflow, 0) := by decide

/-- V-R6 and V-R16: the whole 64-bit value is compared. -/
theorem test_lkcode : field lookedUp (exec .lkcode (withValue 0x1100)) = some (true, 16, 0x1100, .ok) ∧
    field lookedUp (exec .lkcode (withValue 0x100000011)) = some (false, 31, 0, .ok) := by decide

/-- V-N2 and V-N7: an alias of SHA3-512, and case matters. -/
theorem test_lkname : field lookedUp (exec .lkname (loaded (ascii ['s', 'h', 'a', '3']) [])) = some (true, 4, 0x14, .ok) ∧
    field lookedUp (exec .lkname (loaded (ascii ['S', 'H', 'A', '1']) [])) = some (false, 31, 0, .ok) := by decide

/-- V-R18: VALID writes FOUND alone. -/
theorem test_valid : field lookedUp (exec .valid { withValue 0x30 with found := true, funcId := 1, funcCode := 0x11 }) =
    some (false, 1, 0x11, .ok) := by decide

/-- The example of 44_buffer.md R200. -/
theorem test_out2in : field (fun t => (t.ibuf, t.inPtr.toNat, t.inLen.toNat, t.outLen.toNat))
    (exec .out2in (loaded [] [0x11, 0x14])) = some ([(0, 0x11), (1, 0x14)], 0, 2, 0) := by decide

/-- V-D30, V-H21 and V-X11: the model fault at the first byte read that holds no value; V-D31 and V-H20: no fault at one
not reached. -/
theorem test_uninit : faultOf (exec .vdec (unwritten 1)) = some (.uninitRead .ibuf 0) ∧
    faultOf (exec .hexdec { loaded [0x30] [] with inLen := 2 }) = some (.uninitRead .ibuf 1) ∧
    faultOf (exec .hexenc { loaded [0x00] [] with inLen := 2 }) = some (.uninitRead .ibuf 1) ∧
    field decoded (exec .vdec { loaded [0x05] [] with inLen := 2 }) = some (5, 1, .ok, 1) ∧
    field State.err (exec .hexdec { loaded [0x67] [] with inLen := 2 }) = some .invalidInput := by decide

/-- V-E7: an illegal word comes before bad pointers; V-E12: FOUND stays, STATUS = 0x0000_0606. -/
theorem test_illegal_first :
    field State.err (execWord 0x100 { loaded [0x01] [] with inPtr := 2 }) = some .illegalCommand ∧
    field State.statusWord (complete (State.accept { State.reset with found := true } 0)) = some 0x606 := by decide

/-- A write lands in its lanes, and a torn VALUE keeps its other half (20_memory.md R51, V-V23). -/
theorem test_bus_write :
    (State.reset.access (.write 0x10000 .two 0x0201)).1.ibuf = [(0, 0x01), (1, 0x02)] ∧
    ((withValue 0x100000000).access (.write 0x10 .four 0x11)).1.value = 0x100000011 := by decide

/-- A host program line by line: CMD written, then STATUS read until BUSY is 0 (30_encoding.md R85). -/
theorem test_host_lines : ((State.reset.runLine (.cmd .valid)).hostTurn).cmdLatch = 0x08 ∧
    (assemble [.run .valid]) = [.cmd .valid, .wait] := by decide

-- ---- Witnesses: every statement's hypotheses are met ----

/-- IllegalWordCompletesWithIllegalCommand: each way a word can be illegal, at the edges of OP and RSV, at reset. -/
theorem witness_illegal : (∀ i, decode 0x00 ≠ .ok i) ∧ (∀ i, decode 0x0A ≠ .ok i) ∧ (∀ i, decode 0xFF ≠ .ok i) ∧
    (∀ i, decode 0x0102 ≠ .ok i) ∧ (∀ i, decode 0x80000002 ≠ .ok i) ∧ State.reset.busy = false ∧
    State.reset.inReset = false := by
  refine ⟨?_, ?_, ?_, ?_, ?_, rfl, rfl⟩ <;> intro i <;> cases i <;> decide

/-- DecodeInvertsEncode. -/
theorem witness_wf : Instr.wf .out2in = true ∧ decode 0x09 = .ok .out2in := by decide

/-- BadPointersStopEveryCommand: V-E6, V-E8, V-E9 fail the check, and V-E11 and a full output pass it. -/
theorem witness_pointers : State.pointersOk { loaded [0x01] [] with inPtr := 2 } = false ∧
    (unwritten 1025).pointersOk = false ∧ State.pointersOk { State.reset with outLen := 1025 } = false ∧
    State.pointersOk { unwritten 1024 with inPtr := 1024 } = true ∧
    State.pointersOk { State.reset with outLen := 1024 } = true := by decide

/-- CmdWriteIsAcceptedOrOverruns, OvrIsSticky, IdAndCapRead, ReadOnlyRegistersIgnoreWrites, StatusFieldsAndClear,
ValueIsWrittenByHalves, LengthRegistersTakeSixteenBits, ResultRegistersRead: an idle and a busy machine out of reset. -/
theorem witness_idle_and_busy : State.reset.inReset = false ∧ State.reset.busy = false ∧
    (State.reset.accept 2).inReset = false ∧ (State.reset.accept 2).busy = true := by decide

/-- StepRunsDecodedCommand, with a list of moves and without one. -/
theorem witness_step : Instr.wf .vdec = true ∧ decode (State.reset.withFetchWord 32 2).cmdLatch = .ok .vdec ∧
    (State.reset.withFetchWord 32 2).busy = true ∧ (State.reset.withFetchWord 32 2).inReset = false ∧
    (State.reset.withFetchWord 32 2).turns = .block :: [] ∧ decode (State.reset.accept 2).cmdLatch = .ok .vdec ∧
    (State.reset.accept 2).busy = true ∧ (State.reset.accept 2).inReset = false ∧
    (State.reset.accept 2).turns = [] := by decide

/-- With no list of moves, a pending command waits a free number of host steps (70_reset_and_hazards.md R250), each delay
drawn once, and an idle block leaves the move to the host. -/
theorem test_free_delay :
    (State.reset.accept 2).planned.turns = List.replicate (Config.delay 0) .host ++ [.block] ∧
    (State.reset.accept 2).planned.delays = 1 ∧ State.reset.nextTurn.1 = .host ∧
    State.reset.nextTurn.2 = State.reset := ⟨rfl, rfl, rfl, rfl⟩

/-- CompletionIsTheOnlyBlockStep: a move of the block of an idle and of a busy machine. -/
theorem witness_completion : (∃ t, takeTurn .block State.reset = .next t) ∧
    ∃ t, takeTurn .block (State.reset.accept 8) = .next t := ⟨⟨_, rfl⟩, ⟨_, rfl⟩⟩

/-- EveryAcceptedCommandCompletes: the host moves twice before the block. -/
theorem witness_accepted : ∃ s : State, s.busy = true ∧ s.inReset = false ∧ s.turns = [.host, .host] ∧
    ∀ m ∈ s.turns, m = .host ∨ m = .block :=
  ⟨{ State.reset.accept 8 with turns := [.host, .host] }, rfl, rfl, rfl, by decide⟩

/-- FaultsOnlyAtUnwrittenBytes, in each buffer. -/
theorem witness_fault : faultOf (step ((unwritten 1).latched 2)) = some (.uninitRead .ibuf 0) ∧
    faultOf (step (State.latched { State.reset with outLen := 1 } 9)) = some (.uninitRead .obuf 0) := by decide

/-- CommandsCompleteOnWrittenBytes. -/
theorem witness_written :
    ((.vdec : Instr) ∈ ([.vdecraw, .vdec, .hexdec, .hexenc, .lkname] : List Instr) → ∀ n,
      (loaded [0xAC, 0x02] []).inPtr.toNat ≤ n → n < (loaded [0xAC, 0x02] []).inLen.toNat →
      (loaded [0xAC, 0x02] []).ibuf.read n ≠ none) ∧
    ((.out2in : Instr) = .out2in → ∀ n, n < (loaded [] [0x11]).outLen.toNat →
      (loaded [] [0x11]).obuf.read n ≠ none) := by
  refine ⟨fun _ n _ h => ?_, fun _ n h => ?_⟩
  · have h2 : n < 2 := h
    revert n; decide
  · have h1 : n < 1 := h
    revert n; decide

/-- FailingCommandWritesNothing: VENC of V-E10 and VDEC of V-D24. -/
theorem witness_failing : (∃ t, exec .venc { State.reset with outLen := 1024 } = .next t ∧ t.err ≠ .ok) ∧
    ∃ t, exec .vdec (loaded [0x80] []) = .next t ∧ t.err ≠ .ok :=
  ⟨⟨_, rfl, by decide⟩, ⟨_, rfl, by decide⟩⟩

/-- ResultDependsOnlyOnWhatIsRead: the byte past the window differs; OUT2IN and VENC store over bytes that differ. -/
theorem witness_same_window : State.window { loaded [0x05] [] with ibuf := [(0, 0x05), (1, 0xFF)] } =
      (loaded [0x05] []).window ∧
    State.output { loaded [] [0x05] with ibuf := [(0, 0xFF)] } = (loaded [] [0x05]).output ∧
    (∃ t, exec .out2in (loaded [] [0x05]) = .next t ∧ t.err = .ok ∧ 0 < (loaded [] [0x05]).outLen.toNat) ∧
    (∃ t, exec .venc { State.reset with obuf := [(0, 0xFF)] } = .next t ∧ 0 < t.outLen.toNat) ∧
    State.output { loaded [0x05] [] with ibuf := [(0, 0x05), (1, 0xFF)] } = (loaded [0x05] []).output :=
  ⟨by decide, by decide, ⟨_, rfl, by decide, by decide⟩, ⟨_, rfl, by decide⟩, by decide⟩

/-- VdecOutcomes and VdecrawOutcomes, a value: nine continuation bytes and 01, and a single byte. -/
theorem witness_vdec_value : (loaded (ten 1) []).pointersOk = true ∧
    (loaded (ten 1) []).window = (List.replicate 9 (0x80 : Byte) ++ [0x01]).map some ++ [] ∧
    (∀ c ∈ List.replicate 9 (0x80 : Byte), 128 ≤ c.toNat) ∧ (0x01 : Byte).toNat < 128 ∧ (0x01 : Byte).toNat ≤ 1 ∧
    (loaded [0x7F] []).window = ([] ++ [(0x7F : Byte)]).map some ++ [] := by decide

/-- VdecOutcomes, VdecrawOutcomes and DecodeRawOverflows, an overflow: the tenth byte is 2, and the eleventh is 0. -/
theorem witness_vdec_overflow : (loaded (ten 2) []).window = (List.replicate 9 (0x80 : Byte) ++ [0x02]).map some ++ [] ∧
    (loaded (ten 2) []).pointersOk = true ∧ 1 < (0x02 : Byte).toNat ∧ (loaded (0x80 :: ten 0) []).pointersOk = true ∧
    (loaded (0x80 :: ten 0) []).window = (List.replicate 10 (0x80 : Byte) ++ [0x00]).map some ++ [] ∧
    (∀ c ∈ List.replicate 10 (0x80 : Byte), 128 ≤ c.toNat ∧ c.getLsbD 7 = true) ∧
    (0x00 : Byte).getLsbD 7 = false := by decide

/-- VdecOutcomes and VdecrawOutcomes, no terminal byte: an empty window, and twelve continuation bytes. -/
theorem witness_vdec_short : State.reset.window = ([] : List Byte).map some ∧
    (loaded (List.replicate 12 0x80) []).window = (List.replicate 12 (0x80 : Byte)).map some ∧
    (loaded (List.replicate 12 0x80) []).pointersOk = true := by decide

/-- VdecOutcomes and VdecrawOutcomes, the model fault. -/
theorem witness_vdec_fault : State.window { loaded [0x80] [] with inLen := 2 } = ([0x80] : List Byte).map some ++ none :: [] ∧
    State.pointersOk { loaded [0x80] [] with inLen := 2 } = true := by decide

/-- VencOutcomes: the last byte of OBUF, and one byte too many. -/
theorem witness_venc : State.pointersOk { withValue 0x7F with outLen := 1023 } = true ∧
    1023 + (encodeVarint 0x7F).length ≤ 1024 ∧ 1024 < 1023 + (encodeVarint 0x80).length := by decide

/-- AppendIsAllOrNothing: the last byte of OBUF, and one byte too many. -/
theorem witness_append : 1023 + [(0x7F : Byte)].length ≤ State.reset.config.bufCap.toNat ∧
    State.reset.config.bufCap.toNat < 1024 + [(0x7F : Byte)].length := by decide

/-- ErrChangesOnlyAtCompletion: a completion that changes ERR, and a released reset that does. -/
theorem witness_err : field State.err (step (State.reset.latched 0)) = some .illegalCommand ∧ State.reset.err = .ok ∧
    field State.err (step { State.reset with err := .badPointers, inReset := true, turns := [.releaseReset] }) =
      some .ok := by decide

/-- NoShorterVarintDecodesToValue: a longer spelling of 0. -/
theorem witness_longer : decodeRaw ([0x80, 0x00].map some) = .ok (0, 2) := by decide

/-- TwoVdecsReadRecordHeader: the record of S5, cut short. -/
theorem witness_record : (loaded [0x11, 0x02, 0x8A, 0x17] []).pointersOk = true ∧
    (loaded [0x11, 0x02, 0x8A, 0x17] []).window =
      (encodeVarint 0x11 ++ encodeVarint 2 ++ [0x8A, 0x17]).map some := by decide

/-- VencOut2inVdecrawGivesValueBack. -/
theorem witness_empty_output : (withValue 0xFFFFFFFFFFFFFFFF).pointersOk = true ∧ (withValue 0xFFFFFFFFFFFFFFFF).outLen = 0 ∧
    10 ≤ (withValue 0xFFFFFFFFFFFFFFFF).config.bufCap.toNat := by decide

/-- VarintDecodeFrame, OutputCommandsFrame, RegistryCommandsFrame, Out2inFrame and FoundIsWrittenOnlyByLookups: a next
state of every command. -/
theorem witness_next : ∀ i : Instr, ∃ t, exec i (loaded [0x30, 0x30] [0x01]) = .next t := by
  intro i
  cases i <;> exact ⟨_, rfl⟩

/-- HexdecOutcomes, bytes stored and bytes that do not fit (V-H16, V-H17). -/
theorem witness_hexdec : (loaded [0x61, 0x46] []).window = pairText [(0x61, 0x46)] ∧
    List.Forall₂ spells [(0x61, 0x46)] [0xAF] ∧ (loaded [0x61, 0x46] []).pointersOk = true ∧
    State.pointersOk { loaded [0x61, 0x46] [] with outLen := 1024 } = true ∧ 1023 + 1 ≤ 1024 ∧ 1024 < 1024 + 1 :=
  ⟨by decide, .cons ⟨10, 15, by decide, by decide, by decide⟩ .nil, by decide, by decide, by decide, by decide⟩

/-- HexdecOutcomes, odd length; and a bad or unwritten first and second character after a good pair. -/
theorem witness_hexdec_stops : (unwritten 3).pointersOk = true ∧ (loaded [0x61, 0x46, 0x67, 0x30] []).pointersOk = true ∧
    State.pointersOk { loaded [0x61, 0x46, 0x30] [] with inLen := 4 } = true ∧ ((unwritten 3).inLen.toNat - (unwritten 3).inPtr.toNat) % 2 = 1 ∧
    (loaded [0x61, 0x46, 0x67, 0x30] []).window = pairText [(0x61, 0x46)] ++ some 0x67 :: some 0x30 :: [] ∧
    hexval 0x67 = none ∧ hexval 0x30 = some 0 ∧
    State.window { loaded [0x61, 0x46] [] with inLen := 4 } = pairText [(0x61, 0x46)] ++ none :: none :: [] ∧
    State.window { loaded [0x61, 0x46, 0x30] [] with inLen := 4 } =
      pairText [(0x61, 0x46)] ++ some 0x30 :: none :: [] := by decide

/-- HexencOutcomes: the whole capacity, one byte too many, an unwritten byte. -/
theorem witness_hexenc : (loaded [0x8A] []).window = ([0x8A] : List Byte).map some ∧ 1022 + 2 * 1 ≤ 1024 ∧ 1024 < 1023 + 2 * 1 ∧
    State.pointersOk { loaded [0x8A] [] with outLen := 1022 } = true ∧
    State.pointersOk { loaded [0x8A] [] with outLen := 1023 } = true ∧
    State.pointersOk { loaded [0x8A] [] with inLen := 2 } = true ∧
    State.window { loaded [0x8A] [] with inLen := 2 } = ([0x8A] : List Byte).map some ++ none :: [] := by decide

/-- HexRoundTripOnLowercaseText. -/
theorem witness_hex_text : hexDecode ([0x61, 0x62].map some) = .ok [0xAB] ∧
    hexDecode ([0x41, 0x62].map some) = .ok [0xAB] := by decide

/-- LkcodeOutcomes and ValidOutcomes: a hit and a miss. -/
theorem witness_code : (withValue 0xB260).value = HashId.blake2sMax.code ∧ (withValue 0xB260).pointersOk = true ∧
    ∀ h : HashId, (withValue 0xB261).value ≠ h.code :=
  ⟨by decide, by decide, by intro h; cases h <;> decide⟩

/-- LknameOutcomes: a hit, a miss (the empty window), an unwritten byte. -/
theorem witness_name : (loaded [0x69, 0x64] []).window = ([0x69, 0x64] : List Byte).map some ∧
    ([0x69, 0x64], HashId.ident) ∈ State.reset.config.nameTable ∧ (loaded [0x69, 0x64] []).pointersOk = true ∧
    State.reset.pointersOk = true ∧ (unwritten 1).pointersOk = true ∧
    (State.reset.config.nameTable.map (fun p => p.1)).Nodup ∧ State.reset.window = ([] : List Byte).map some ∧
    (∀ p ∈ State.reset.config.nameTable, p.1 ≠ []) ∧ (unwritten 1).window = ([] : List Byte).map some ++ none :: [] := by
  decide

/-- Out2inOutcomes: bytes, and an unwritten one. -/
theorem witness_output : (loaded [] [0x11, 0x14]).output = ([0x11, 0x14] : List Byte).map some ∧
    (loaded [] [0x11, 0x14]).pointersOk = true ∧ State.pointersOk { loaded [] [0x11] with outLen := 2 } = true ∧
    State.output { loaded [] [0x11] with outLen := 2 } = ([0x11] : List Byte).map some ++ none :: [] := by decide

/-- AccessIsAdmittedOrBusError and OvrIsSticky: the last register and the last bytes of a window are admitted. -/
theorem witness_admitted : admittedOffset 1024 0x30 .four ∧ admittedOffset 1024 0x103FC .four ∧
    admittedOffset 1024 0x203FF .one := by
  refine ⟨Or.inl (by decide), Or.inr ⟨0x3FC, by decide⟩, Or.inr ⟨0x3FF, by decide⟩⟩

/-- AccessIsAdmittedOrBusError: past the registers, a short register access, past a window, misaligned. -/
theorem witness_not_admitted : ¬admittedOffset 1024 0x34 .four ∧ ¬admittedOffset 1024 0x00 .two ∧
    ¬admittedOffset 1024 0x10400 .one ∧ ¬admittedOffset 1024 0x10001 .two := by
  refine ⟨?_, ?_, ?_, ?_⟩ <;> rintro (⟨h, hm⟩ | ⟨i, h, ha, hc⟩) <;> simp_all [Size.bytes] <;> omega

/-- BufferAccessIsLittleEndian: the last two bytes of a window. -/
theorem witness_window : 1022 % Size.bytes .two = 0 ∧ 1022 + Size.bytes .two ≤ State.reset.config.bufCap.toNat := by
  decide

/-- OvrIsSticky, its falling edge: a host write of STATUS with bit 3 set. -/
theorem witness_ovr_clear : field State.ovr (step { State.reset with ovr := true, turns := [.host], host :=
    { HostAgent.idle with queue := [.write 0x0C .four 8] } }) = some false := by decide

/-- BusyReadsTellNothing: two busy machines that differ in VALUE, at the address of VALUE_LO. -/
theorem witness_busy_reads : ((withValue 1).accept 2).busy = true ∧ ((withValue 2).accept 2).busy = true ∧
    ((withValue 1).accept 2).config = ((withValue 2).accept 2).config ∧
    ((withValue 1).accept 2).draws = ((withValue 2).accept 2).draws ∧
    0x10 ≠ ((withValue 1).accept 2).config.base + 0x0C := by decide

/-- FoundIsWrittenOnlyByLookups: a completion of VALID that sets FOUND, and a released reset that clears it. -/
theorem witness_found_edges : State.reset.found = false ∧ field State.found (step (State.reset.latched 8)) = some true ∧
    field State.found (step { State.reset with found := true, inReset := true, turns := [.releaseReset] }) =
      some false := by decide

/-- BusyChangesOnlyByAcceptanceOrCompletion, DONE: a completion that sets it, an acceptance and a reset that clear it. -/
theorem witness_done_edges : field State.done (step (State.reset.latched 8)) = some true ∧
    field State.done (step { State.reset with done := true, host :=
      { HostAgent.idle with queue := [.write 0x08 .four 8] } }) = some false ∧
    field State.done (step { State.reset with done := true, inReset := true, turns := [.releaseReset] }) =
      some false := by decide

/-- BusyChangesOnlyByAcceptanceOrCompletion: a step that raises BUSY, one that completes, one that resets. -/
theorem witness_busy_edges : field State.busy (step { State.reset with host :=
      { HostAgent.idle with queue := [.write 0x08 .four 8] } }) = some true ∧
    field State.busy (step (State.reset.latched 8)) = some false ∧
    field State.busy (step { State.reset.accept 8 with inReset := true, turns := [.releaseReset] }) = some false := by
  decide

/-- HostCmdLineStartsCommand. -/
theorem witness_cmd_line : ∃ s : State, s.busy = false ∧ s.inReset = false ∧ s.host.queue = [] ∧
    s.host.program[s.host.pos]? = some (.cmd .vdec) ∧ s.turns = .host :: .host :: [] :=
  ⟨{ State.reset with turns := [.host, .host], host := { HostAgent.idle with program := [.cmd .vdec] } },
    rfl, rfl, rfl, rfl, rfl⟩

/-- HostBranchesOnBusError: a write past the registers, which is a bus error, and one to VALUE_LO, which is not. -/
theorem witness_bus_error : ∃ s : State, (∀ a, (.write 0x34 .four 0 : BusOp) ≠ .poll a) ∧
    s.host.failed = false ∧ s.host.queue = [.write 0x34 .four 0] ∧
    s.host.program[s.host.pos]? = some (.ifGoto .lineError ['e']) ∧ s.turns = .host :: .host :: [] ∧
    (s.access (.write 0x34 .four 0)).2 = .busError ∧ (s.access (.write 0x10 .four 0)).2 ≠ .busError :=
  ⟨{ State.reset with turns := [.host, .host], host :=
      { HostAgent.idle with program := [.ifGoto .lineError ['e']], queue := [.write 0x34 .four 0] } },
    by intro a; simp, rfl, rfl, rfl, rfl, by decide, by decide⟩

/-- A bus error early in a line is kept to its end (20_memory.md R54): the byte past BUF_CAP, then one inside. -/
theorem test_line_error : (State.hostTurn (State.hostTurn { State.reset with host :=
      { HostAgent.idle with queue := [.write 0x10400 .one 1, .write 0x10000 .one 1] } })).host.failed = true ∧
    (State.hostTurn { State.assertReset State.reset with host :=
      { HostAgent.idle with queue := [.poll 0x0C] } }).host.queue = [] := by decide

/-- A program computes with and branches on what rdb read (30_encoding.md R85): two written bytes of IBUF, whose name
held a number before, compared with a text, measured, indexed, and written back to OBUF. -/
theorem test_rdb_value :
    let s := State.hostTurn (State.hostTurn (State.runLine
      ({ loaded [0x69, 0x64] [] with turns := [] }.assign ['t'] (.num 7)) (.rdb .ibuf (.num 0) (.num 2) ['t'])))
    Cond.holds s.host (.eq (.var ['t']) (.bytes (ascii ['i', 'd']))) = true ∧
    s.evalExpr (.len (.var ['t'])) = .num 2 ∧ s.evalExpr (.byte (.var ['t']) (.num 1)) = .num 0x64 ∧
    (s.runLine (.wrb .obuf (.num 0) (.var ['t']))).hostTurn.obuf = [(0, 0x69)] := by decide

/-- WaitRepeatsWhileBusy: the queue `wait` makes. -/
theorem witness_wait : (State.reset.runLine .wait).host.queue = .poll (State.reset.config.base + 0x0C) :: [] ∧
    (State.reset.runLine .wait).inReset = false := by decide

/-- ResetAbandonsPendingCommand: reset asserted with a command pending. -/
theorem witness_reset : (State.assertReset (State.reset.accept 2)).inReset = true ∧
    (State.assertReset (State.reset.accept 2)).busy = true ∧
    ∃ t, takeTurn .releaseReset (State.assertReset (State.reset.accept 2)) = .next t :=
  ⟨rfl, rfl, _, rfl⟩

/-- StepKeepsInvariant and StepKeepsParameters: a machine with bytes in both buffers, a lookup's result, and a command
pending. -/
theorem witness_invariant : (State.latched { loaded [0x01] [0x02] with funcId := 1, funcCode := 0x11 } 2).Inv ∧
    ∃ t, step (State.latched { loaded [0x01] [0x02] with funcId := 1, funcCode := 0x11 } 2) = .next t :=
  ⟨⟨by unfold State.buffersWf; decide, by decide, Or.inr ⟨.sha1, by decide⟩, by unfold State.countInRange; decide⟩,
    _, rfl⟩

end Sys2Proof.Tests
end

section
/-! PROOFS of the statements on STATUS, the fixed registers and reset (10_state.md sections 2, 3 and 7). First what a
completion and a step can do to the flags of STATUS, then each statement from that. -/

namespace Sys2Proof.Machine

/-! ### What a completion does -/

/-- All a completion that answers a next state can do, with the command that the latched word decodes to
(40_command_cycle.md R101, R102, R110). -/
theorem complete_next_decoded {s t : State} (h : complete s = .next t) :
    t = (s.fail .illegalCommand).completed ∨
      ∃ i u, decode s.cmdLatch = .ok i ∧ exec i s = .next u ∧ t = u.completed := by
  obtain ⟨u, hu, rfl⟩ := onNext_eq_next h
  unfold execWord at hu
  cases hd : decode s.cmdLatch with
  | ok i => rw [hd] at hu; exact Or.inr ⟨i, u, rfl, hu, rfl⟩
  | error e => rw [hd] at hu; cases hu; exact Or.inl rfl

theorem complete_flags {s t : State} (h : complete s = .next t) :
    t.busy = false ∧ t.done = true ∧ t.ovr = s.ovr := by
  rcases complete_next h with rfl | ⟨i, u, hu, rfl⟩
  · simp
  · obtain ⟨-, -, -, hovr, -⟩ := exec_untouched hu
    simp [hovr]

/-! ### No command reads OVR or ERR -/

/-- A state with another OVR. -/
def State.setOvr (s : State) (o : Bool) : State := { s with ovr := o }

/-- A state with another OVR and another ERR. -/
def State.withFlags (s : State) (o : Bool) (e : ErrCode) : State := { s with ovr := o, err := e }

theorem State.withFlags_ovr_self (s : State) (e : ErrCode) : s.withFlags s.ovr e = { s with err := e } := rfl

theorem State.withFlags_err_self (s : State) (o : Bool) : s.withFlags o s.err = { s with ovr := o } := rfl

theorem State.setOvr_self (s : State) : s.setOvr s.ovr = s := rfl

theorem State.append_withFlags (s : State) (o : Bool) (e : ErrCode) (bs : List Byte) :
    (s.withFlags o e).append bs = (s.append bs).map (State.withFlags · o e) := by
  rcases s.append_cases bs with ⟨hf, h⟩ | ⟨hf, h⟩
  · rw [h, State.append_fits (s := s.withFlags o e) hf]
    rfl
  · rw [h, State.append_overflows (s := s.withFlags o e) hf]
    rfl

theorem State.finishVdec_withFlags (s : State) (o : Bool) (e : ErrCode) (v : DWord) (c : Int) :
    (s.withFlags o e).finishVdec v c = (s.finishVdec v c).setOvr o := by
  unfold State.finishVdec
  split_ifs <;> rfl

theorem State.setLookup_withFlags (s : State) (o : Bool) (e : ErrCode) (found : Option HashId) :
    ((s.withFlags o e).setLookup found).succeed = (s.setLookup found).succeed.setOvr o := by
  cases found <;> rfl

theorem State.settle_withFlags (s : State) (o : Bool) (e : ErrCode) (b : Buffer) (k : Nat) (r : Except Stop State) :
    (s.withFlags o e).settle b k (r.map (State.setOvr · o)) = onNext (State.setOvr · o) (s.settle b k r) := by
  match r with
  | .ok _ => rfl
  | .error (.failed _) => rfl
  | .error (.unwritten _) => rfl

theorem State.checked_withFlags (s : State) (o : Bool) (e : ErrCode) (r : Result) :
    (s.withFlags o e).checked (onNext (State.setOvr · o) r) = onNext (State.setOvr · o) (s.checked r) := by
  cases hp : s.pointersOk with
  | false =>
    rw [State.checked_bad hp, State.checked_bad (s := s.withFlags o e) hp]
    rfl
  | true => rw [State.checked_ok hp, State.checked_ok (s := s.withFlags o e) hp]

/-- A command's rule that depends on neither flag makes a command that depends on neither. -/
theorem State.rule_withFlags {s : State} {o : Bool} {e : ErrCode} {b : Buffer} {k : Nat} {r r' : Except Stop State}
    (h : r' = r.map (State.setOvr · o)) :
    (s.withFlags o e).checked ((s.withFlags o e).settle b k r') =
      onNext (State.setOvr · o) (s.checked (s.settle b k r)) := by
  rw [h, State.settle_withFlags, State.checked_withFlags]

/-- What a command answers depends on neither OVR nor the ERR before it, and it leaves OVR (10_state.md R28, R29). -/
theorem exec_withFlags (i : Instr) (s : State) (o : Bool) (e : ErrCode) :
    exec i (s.withFlags o e) = onNext (State.setOvr · o) (exec i s) := by
  have hwindow : (s.withFlags o e).window = s.window := rfl
  have houtput : (s.withFlags o e).output = s.output := rfl
  cases i with
  | vdecraw =>
    apply State.rule_withFlags
    rw [hwindow]
    cases decodeRaw s.window <;> rfl
  | vdec =>
    apply State.rule_withFlags
    rw [hwindow]
    cases decodeRaw s.window with
    | ok r => exact congrArg Except.ok (s.finishVdec_withFlags o e r.1 r.2)
    | error => rfl
  | venc =>
    apply State.rule_withFlags
    rw [State.append_withFlags, show (s.withFlags o e).value = s.value from rfl]
    cases s.append (encodeVarint s.value) <;> rfl
  | hexdec =>
    apply State.rule_withFlags
    rw [hwindow]
    cases hexDecode s.window with
    | ok out =>
      simp only [State.append_withFlags]
      cases s.append out <;> rfl
    | error => rfl
  | hexenc =>
    apply State.rule_withFlags
    rw [hwindow]
    cases readAll s.window with
    | ok bs =>
      simp only [State.append_withFlags]
      cases s.append (hexEncode bs) <;> rfl
    | error => rfl
  | lkcode =>
    change (s.withFlags o e).checked (.next ((s.withFlags o e).setLookup (lookupByCode s.value)).succeed) = _
    rw [State.setLookup_withFlags]
    exact s.checked_withFlags o e (.next _)
  | lkname =>
    apply State.rule_withFlags
    rw [hwindow]
    cases readAll s.window with
    | ok k => exact congrArg Except.ok (s.setLookup_withFlags o e (lookupByName s.config.nameTable k))
    | error => rfl
  | valid => exact s.checked_withFlags o e (.next (s.setFound (isValid s.value)).succeed)
  | out2in =>
    apply State.rule_withFlags
    rw [houtput]
    cases readAll s.output <;> rfl

/-- An answer that keeps OVR is not changed by writing that OVR again. -/
theorem onNext_setOvr_of_kept {r : Result} {o : Bool} (h : ∀ t, r = .next t → t.ovr = o) :
    onNext (State.setOvr · o) r = r := by
  match r, h with
  | .next t, h => exact congrArg Host.Outcome.next (by rw [← h t rfl]; rfl)
  | .fault _, _ => rfl
  | .refused _, _ => rfl

theorem exec_err_irrelevant (i : Instr) (s : State) (e : ErrCode) : exec i { s with err := e } = exec i s := by
  rw [← State.withFlags_ovr_self, exec_withFlags]
  refine onNext_setOvr_of_kept fun t ht => ?_
  obtain ⟨-, -, -, hovr, -⟩ := exec_untouched ht
  exact hovr

/-- A completion writes ERR whatever it was before (10_state.md R29). -/
theorem complete_err_irrelevant (s : State) (e : ErrCode) : complete { s with err := e } = complete s := by
  unfold complete
  congr 1
  unfold execWord
  cases decode s.cmdLatch with
  | ok i => exact exec_err_irrelevant i s e
  | error => rfl

/-! ### What a step does to the flags -/

/-- Two states with the same BUSY, DONE, FOUND, OVR and ERR. -/
structure State.SameFlags (s t : State) : Prop where
  busy  : t.busy = s.busy
  done  : t.done = s.done
  found : t.found = s.found
  ovr   : t.ovr = s.ovr
  err   : t.err = s.err

/-- What a move of the host does to the flags (10_state.md R24, R25, R28): it starts a command, clears OVR, sets OVR
while BUSY = 1, or leaves them. -/
inductive HostFlags (s t : State) : Prop where
  | accept (w : Word) (rest : List BusOp) (idle : s.busy = false) (live : s.inReset = false)
      (write : s.host.queue = .write (s.config.base + Reg.offset .cmd) .four w :: rest) (latch : t.cmdLatch = w)
      (flags : (s.accept w).SameFlags t)
  | clear (w : Word) (rest : List BusOp) (idle : s.busy = false) (live : s.inReset = false)
      (write : s.host.queue = .write (s.config.base + Reg.offset .status) .four w :: rest)
      (flags : (s.clearOvr w).SameFlags t)
  | overrun (busy : s.busy = true) (flags : s.writeOverrun.SameFlags t)
  | none (flags : s.SameFlags t)

/-- What a step does to the flags: that of the host, a completion (R101), a released reset (R240), or nothing. -/
inductive StepFlags (s t : State) : Prop where
  | host (turn : s.nextTurn.1 = .host) (effect : HostFlags s t)
  | completion (turn : s.nextTurn.1 = .block) (busy : s.busy = true) (live : s.inReset = false)
      (answer : complete s.nextTurn.2 = .next t)
  | reset (turn : s.nextTurn.1 = .releaseReset) (asserted : s.inReset = true) (values : t = s.nextTurn.2.resetBlock)
  | none (flags : s.SameFlags t)

theorem State.hostTurn_flags (s : State) : HostFlags s s.hostTurn := by
  obtain ⟨h, u, hu, he⟩ := s.hostTurn_effect
  rw [hu]
  rcases he with ⟨k, rfl⟩ | ⟨hb, rfl⟩ | ⟨hb, hr, r, w, rest, hq, rfl⟩ | ⟨-, b, i, n, w, -, rfl⟩
  · exact .none ⟨rfl, rfl, rfl, rfl, rfl⟩
  · exact .overrun hb ⟨rfl, rfl, rfl, rfl, rfl⟩
  · cases r with
    | cmd => exact .accept w rest hb hr hq rfl ⟨rfl, rfl, rfl, rfl, rfl⟩
    | status => exact .clear w rest hb hr hq ⟨rfl, rfl, rfl, rfl, rfl⟩
    | _ => exact .none ⟨rfl, rfl, rfl, rfl, rfl⟩
  · cases b <;> exact .none ⟨rfl, rfl, rfl, rfl, rfl⟩

theorem State.nextTurn_sameFlags (s : State) : s.SameFlags s.nextTurn.2 :=
  ⟨by simp, by simp, by simp, by simp, by simp⟩

/-- Choosing the next move changes nothing that the host's effect on the flags speaks of. -/
theorem HostFlags.of_nextTurn {s t : State} (h : HostFlags s.nextTurn.2 t) : HostFlags s t := by
  obtain ⟨ts, n, he⟩ := s.nextTurn_state
  rw [he] at h
  cases h with
  | accept w rest idle live write latch flags => exact .accept w rest idle live write latch { flags with }
  | clear w rest idle live write flags => exact .clear w rest idle live write { flags with }
  | overrun busy flags => exact .overrun busy { flags with }
  | none flags => exact .none { flags with }

theorem step_flags {s t : State} (h : step s = .next t) : StepFlags s t := by
  rcases step_next h with ⟨ht, rfl⟩ | ⟨ht, hready, hc⟩ | ⟨-, -, rfl⟩ | ⟨-, rfl⟩ | ⟨ht, rfl⟩
  · exact .host ht s.nextTurn.2.hostTurn_flags.of_nextTurn
  · simp only [State.blockReady, State.nextTurn_busy, State.nextTurn_inReset, Bool.and_eq_true,
      Bool.not_eq_true'] at hready
    exact .completion ht hready.1 hready.2 hc
  · exact .none s.nextTurn_sameFlags
  · obtain ⟨hb, hd, hf, ho, he⟩ := s.nextTurn_sameFlags
    exact .none ⟨hb, hd, hf, ho, he⟩
  · unfold State.releaseReset
    split_ifs with hr
    · exact .reset ht (by simpa using hr) rfl
    · exact .none s.nextTurn_sameFlags

/-- The host's moves never touch FOUND and ERR (10_state.md R27, R29). -/
theorem HostFlags.results {s t : State} (h : HostFlags s t) : t.found = s.found ∧ t.err = s.err := by
  cases h with
  | accept _ _ _ _ _ _ flags => exact ⟨flags.found, flags.err⟩
  | clear _ _ _ _ _ flags => exact ⟨flags.found, flags.err⟩
  | overrun _ flags => exact ⟨flags.found, flags.err⟩
  | none flags => exact ⟨flags.found, flags.err⟩

/-! ### ERR -/

/-- Settles O13: no command reads ERR, no move of the host changes it, and every other step that does is of the two
kinds named. -/
theorem errChangesOnlyAtCompletion : Obligations.ErrChangesOnlyAtCompletion := by
  refine ⟨rfl, rfl, rfl, rfl, rfl, rfl, rfl, fun e => by cases e <;> decide, fun _ => rfl, complete_err_irrelevant,
    fun s t h hne => ?_⟩
  cases step_flags h with
  | host _ effect => exact absurd effect.results.2 hne
  | completion turn busy live _ => exact Or.inl ⟨turn, busy, live⟩
  | reset turn asserted _ => exact Or.inr ⟨turn, asserted⟩
  | none flags => exact absurd flags.err hne

/-! ### FOUND -/

theorem isSome_lookupByCode {c : DWord} : (lookupByCode c).isSome = true ↔ ∃ h : HashId, c = h.code := by
  simp only [Option.isSome_iff_exists, lookupByCode_eq_some]

theorem isSome_lookupByName {t : List (List Byte × HashId)} {k : List Byte} :
    (lookupByName t k).isSome = true ↔ ∃ p ∈ t, k = p.1 := by
  induction t with
  | nil => simp [lookupByName]
  | cons p t ih =>
    obtain ⟨name, i⟩ := p
    rw [lookupByName]
    split_ifs with hname
    · simp [hname]
    · simp [ih, Ne.symm hname]

/-- FOUND stays over every command but the lookups, and over every command that fails (10_state.md R27). -/
theorem exec_found_kept {i : Instr} {s t : State} (h : exec i s = .next t)
    (hi : i ∉ [Instr.lkcode, .lkname, .valid] ∨ t.err ≠ .ok) : t.found = s.found := by
  rcases exec_next h with ⟨e, -, -, rfl⟩ | ⟨-, hu⟩
  · rfl
  · cases hu with
    | vdec hd =>
      rename_i v c
      rcases finishVdec_cases s v c with ⟨-, he⟩ | ⟨-, he⟩ | ⟨-, he⟩ <;> rw [he] <;> rfl
    | lkcode => simp at hi
    | lkname => simp at hi
    | valid => simp at hi
    | _ => rfl

/-- A command that ends OK had its rule's effect. -/
theorem exec_effect_of_ok {i : Instr} {s t : State} (h : exec i s = .next t) (hok : t.err = .ok) : Effect s i t := by
  rcases exec_next h with ⟨e, he, -, rfl⟩ | ⟨-, hu⟩
  · exact absurd hok he
  · exact hu

/-- Settles O38: a completion that changes FOUND is a lookup's that ends OK, and FOUND is then whether it found a row. -/
theorem foundIsWrittenOnlyByLookups : Obligations.FoundIsWrittenOnlyByLookups := by
  refine ⟨fun s t h hne => ?_, fun i s t h => ⟨exec_found_kept h, fun hok hi => ?_, fun hok hi => ?_⟩⟩
  · cases step_flags h with
    | host _ effect => exact absurd effect.results.1 hne
    | completion turn busy live answer =>
      rcases complete_next_decoded answer with rfl | ⟨i, u, hd, hu, rfl⟩
      · exact absurd (by simp) hne
      · rw [State.nextTurn_cmdLatch] at hd
        have hkept : ¬(i ∉ [Instr.lkcode, .lkname, .valid] ∨ u.err ≠ .ok) := fun hi =>
          hne (by simpa using exec_found_kept hu hi)
        rw [not_or, not_not, not_not] at hkept
        exact Or.inl ⟨turn, busy, live, hkept.2, i, hkept.1, hd⟩
    | reset turn asserted _ => exact Or.inr ⟨turn, asserted⟩
    | none flags => exact absurd flags.found hne
  · rw [← isSome_lookupByCode]
    rcases hi with rfl | rfl <;> cases exec_effect_of_ok h hok <;> simp [isValid]
  · subst hi
    cases exec_effect_of_ok h hok with
    | lkname hw => simp [isSome_lookupByName, hw, List.map_inj_right]

/-! ### OVR -/

theorem mem_registerOffsets {off : Nat}
    (h : off ∈ [0x00, 0x04, 0x08, 0x0C, 0x10, 0x14, 0x18, 0x1C, 0x20, 0x24, 0x28, 0x2C, 0x30]) :
    ∃ r : Reg, off = r.offset := by
  obtain ⟨r, -, hr⟩ := List.mem_map.1 (show off ∈ Reg.all.map Reg.offset from h)
  exact ⟨r, hr.symm⟩

/-- An access that 20_memory.md R52 and R53 admit is of some place. -/
theorem State.locate_of_admittedOffset {s : State} {off : Nat} {n : Size}
    (h : admittedOffset s.config.bufCap.toNat off n) : ∃ p, s.locate off n = some p := by
  rcases h with ⟨rfl, hoff⟩ | ⟨i, rfl | rfl, halign, hcap⟩
  · obtain ⟨r, rfl⟩ := mem_registerOffsets hoff
    exact ⟨_, State.locate_eq_reg.2 ⟨rfl, rfl⟩⟩
  · exact ⟨_, (State.locate_eq_bytes (b := .ibuf)).2 ⟨rfl, halign, hcap⟩⟩
  · exact ⟨_, (State.locate_eq_bytes (b := .obuf)).2 ⟨rfl, halign, hcap⟩⟩

/-- Settles O43: of all that can change OVR, only a write of STATUS and a released reset can clear it. -/
theorem ovrIsSticky : Obligations.OvrIsSticky := by
  refine ⟨fun s off n w hb hr hoff => ?_, fun i s o => ?_, fun s t h hs ht => ?_⟩
  · obtain ⟨p, hp⟩ := State.locate_of_admittedOffset hoff
    rw [State.access_write_place hr hp, State.writePlace_busy hb]
    rfl
  · rw [← State.withFlags_err_self, exec_withFlags]
    rfl
  · cases step_flags h with
    | host turn effect =>
      cases effect with
      | accept _ _ _ _ _ _ flags => simp [flags.ovr, hs] at ht
      | clear w rest idle live write flags =>
        rw [flags.ovr] at ht
        exact Or.inr ⟨turn, idle, live, rest, w, write, by simpa [State.clearOvr, hs] using ht⟩
      | overrun _ flags => simp [flags.ovr, State.writeOverrun] at ht
      | none flags => simp [flags.ovr, hs] at ht
    | completion _ _ _ answer => simp [(complete_flags answer).2.2, hs] at ht
    | reset turn asserted _ => exact Or.inl ⟨turn, asserted⟩
    | none flags => simp [flags.ovr, hs] at ht

/-! ### BUSY and DONE -/

/-- All a step can do to BUSY and DONE: nothing, accept a CMD write, complete, or reset (10_state.md R25, R26). -/
theorem step_busy_done {s t : State} (h : step s = .next t) :
    (t.busy = s.busy ∧ t.done = s.done) ∨
    (s.nextTurn.1 = .host ∧ s.busy = false ∧ s.inReset = false ∧ t.busy = true ∧ t.done = false ∧ ∃ rest w,
      s.host.queue = .write (s.config.base + 0x08) .four w :: rest ∧ t.cmdLatch = w) ∨
    (s.nextTurn.1 = .block ∧ s.busy = true ∧ s.inReset = false ∧ t.busy = false ∧ t.done = true) ∨
    (s.nextTurn.1 = .releaseReset ∧ s.inReset = true ∧ t.busy = false ∧ t.done = false) := by
  cases step_flags h with
  | host turn effect =>
    cases effect with
    | accept w rest idle live write latch flags =>
      exact Or.inr (Or.inl ⟨turn, idle, live, flags.busy, flags.done, rest, w, write, latch⟩)
    | clear _ _ _ _ _ flags => exact Or.inl ⟨flags.busy, flags.done⟩
    | overrun _ flags => exact Or.inl ⟨flags.busy, flags.done⟩
    | none flags => exact Or.inl ⟨flags.busy, flags.done⟩
  | completion turn busy live answer =>
    obtain ⟨hb, hd, -⟩ := complete_flags answer
    exact Or.inr (Or.inr (Or.inl ⟨turn, busy, live, hb, hd⟩))
  | reset turn asserted values =>
    subst values
    exact Or.inr (Or.inr (Or.inr ⟨turn, asserted, rfl, rfl⟩))
  | none flags => exact Or.inl ⟨flags.busy, flags.done⟩

/-- Settles O52: each edge of BUSY and of DONE is in one case of `step_busy_done` alone. -/
theorem busyChangesOnlyByAcceptanceOrCompletion : Obligations.BusyChangesOnlyByAcceptanceOrCompletion := by
  refine ⟨fun c => ⟨rfl, rfl⟩, fun s w hr hb => ?_, fun s t h => ?_, fun s t h => ?_⟩
  · have hwrite := State.access_write_reg hr .cmd w
    rw [State.writePlace_reg hb] at hwrite
    exact ⟨congrArg (·.1.busy) hwrite, congrArg (·.1.done) hwrite⟩
  · obtain ⟨hb, hd, -⟩ := complete_flags h
    exact ⟨hb, hd⟩
  · rcases step_busy_done h with
      ⟨hb, hd⟩ | ⟨turn, idle, live, hb, hd, rest, w, write, latch⟩ | ⟨turn, busy, live, hb, hd⟩ |
      ⟨turn, asserted, hb, hd⟩
    · simp +contextual [hb, hd]
    · simp [turn, idle, live, hb, hd, write, latch]
    · simp [turn, busy, live, hb, hd]
    · simp [turn, asserted, hb, hd]

/-! ### The registers as a host accesses them -/

theorem State.statusWord_flags (s : State) :
    s.statusWord.getLsbD 0 = s.busy ∧ s.statusWord.getLsbD 1 = s.done ∧ s.statusWord.getLsbD 2 = s.found ∧
      s.statusWord.getLsbD 3 = s.ovr := by
  unfold State.statusWord
  simp only [BitVec.getLsbD_append, BitVec.getLsbD_ofBool]
  simp

theorem State.statusWord_err (s : State) : s.statusWord.extractLsb' 8 4 = s.err.code := by
  unfold State.statusWord
  iterate 5 rw [BitVec.extractLsb'_append_eq_of_le (by decide)]
  exact extract_append_low _ _

theorem State.statusWord_reserved (s : State) :
    s.statusWord.extractLsb' 4 4 = 0 ∧ s.statusWord.extractLsb' 12 20 = 0 := by
  unfold State.statusWord
  constructor
  · iterate 4 rw [BitVec.extractLsb'_append_eq_of_le (by decide)]
    exact extract_append_low _ _
  · iterate 5 rw [BitVec.extractLsb'_append_eq_of_le (by decide)]
    exact extract_append_high _ _

theorem State.statusWord_resetWith (c : Config) : (State.resetWith c).statusWord = 0 := by
  change State.reset.statusWord = 0
  decide

/-- A register read while BUSY = 0 returns its value and changes nothing. -/
theorem State.access_read_reg_idle {s : State} (hr : s.inReset = false) (hb : s.busy = false) (r : Reg) :
    s.access (.read (s.config.base + r.offset) .four) = (s, .data (s.readReg r)) := by
  rw [State.access_read_reg hr, State.readPlace_reg hb]

theorem State.access_write_reg_idle {s : State} (hr : s.inReset = false) (hb : s.busy = false) (r : Reg) (w : Word) :
    s.access (.write (s.config.base + r.offset) .four w) = (s.writeReg r w, .done) := by
  rw [State.access_write_reg hr, State.writePlace_reg hb]

/-- Settles O44: a read and a write of STATUS, and where its word holds each flag. -/
theorem statusFieldsAndClear : Obligations.StatusFieldsAndClear := by
  intro s w hr
  obtain ⟨hbusy, hdone, hfound, hovr⟩ := s.statusWord_flags
  obtain ⟨hlow, hhigh⟩ := s.statusWord_reserved
  exact ⟨State.access_read_reg hr .status, hbusy, hdone, hfound, hovr, hlow, s.statusWord_err, hhigh,
    State.statusWord_resetWith, fun hb => State.access_write_reg_idle hr hb .status w⟩

theorem State.readReg_cap_fields (s : State) :
    (s.readReg .cap).extractLsb' 0 16 = s.config.bufCap ∧ (s.readReg .cap).extractLsb' 16 8 = 10 ∧
      (s.readReg .cap).extractLsb' 24 8 = 0 := by
  unfold State.readReg
  refine ⟨extract_append_low _ _, ?_, ?_⟩
  · rw [BitVec.extractLsb'_append_eq_of_le (by decide)]
    exact extract_append_low _ _
  · rw [BitVec.extractLsb'_append_eq_of_le (by decide)]
    exact extract_append_high _ _

/-- Settles O45: ID and CAP are two of the registers whose reads return a constant and whose writes do nothing. -/
theorem idAndCapRead : Obligations.IdAndCapRead := fun s w hr hb =>
  ⟨State.access_read_reg_idle hr hb .ident,
    ⟨_, State.access_read_reg_idle hr hb .cap, s.readReg_cap_fields⟩,
    State.access_write_reg_idle hr hb .ident w, State.access_write_reg_idle hr hb .cap w⟩

/-- Settles O46: `writeReg` gives the read-only registers back as they were, and a read only draws free bytes. -/
theorem readOnlyRegistersIgnoreWrites : Obligations.ReadOnlyRegistersIgnoreWrites := by
  intro s w hr
  refine ⟨fun hb r hreg => ?_, fun hb => State.access_read_reg_idle hr hb .cmd, fun r => ?_⟩
  · have hkept : s.writeReg r w = s := by
      cases r with
      | cmd | status | valueLo | valueHi | inPtr | inLen | outLen => simp at hreg
      | _ => rfl
    rw [State.access_write_reg_idle hr hb, hkept]
  · rw [State.access_read_reg hr]
    obtain ⟨k, hk⟩ := s.readPlace_state (.reg r) .four
    rw [hk]
    rfl

/-! ### Reset -/

/-- CAP as one word (10_state.md R22, R42). -/
theorem State.readReg_cap (s : State) : s.readReg .cap = 0x000A0000 ||| s.config.bufCap.setWidth 32 := by
  have hcap : s.config.bufCap.setWidth 32 = (0 : Half) ++ s.config.bufCap := setWidth_eq_append _
  calc s.readReg .cap = (0x000A#16 ||| 0#16) ++ (0#16 ||| s.config.bufCap) := by
        rw [BitVec.or_zero, BitVec.zero_or]; rfl
    _ = (0x000A#16 ++ 0#16) ||| (0#16 ++ s.config.bufCap) := BitVec.or_append.symm
    _ = 0x000A0000 ||| s.config.bufCap.setWidth 32 := by rw [hcap]; rfl

/-- Settles O55: ID and CAP by their reads, and all else by what `resetWith` writes. -/
theorem resetValues : Obligations.ResetValues := by
  intro c s
  have hread : ∀ r : Reg, s.access (.read (c.base + r.offset) .four) = (s, .data (s.readReg r)) :=
    State.access_read_reg_idle (s := s) rfl rfl
  have hcap : s.readReg .cap = 0x000A0000 ||| c.bufCap.setWidth 32 := s.readReg_cap
  exact ⟨hread .ident, hcap ▸ hread .cap, rfl, rfl, rfl, rfl, rfl, rfl, rfl, rfl, rfl, rfl, rfl, rfl, rfl, rfl,
    fun b a => by cases b <;> rfl, rfl, rfl⟩

end Sys2Proof.Machine
end

section
/-! PROOFS of the statements on the address map (20_memory.md section 2): which accesses are of a place, and what the
host is answered. -/

namespace Sys2Proof.Machine

theorem Reg.offset_mem (r : Reg) :
    r.offset ∈ [0x00, 0x04, 0x08, 0x0C, 0x10, 0x14, 0x18, 0x1C, 0x20, 0x24, 0x28, 0x2C, 0x30] := by
  cases r <;> decide

/-- An access that is of some place is one that 20_memory.md R52 or R53 admits. -/
theorem State.admittedOffset_of_locate {s : State} {off : Nat} {n : Size} {p : Place} (h : s.locate off n = some p) :
    admittedOffset s.config.bufCap.toNat off n := by
  cases p with
  | reg r =>
    obtain ⟨hn, rfl⟩ := State.locate_eq_reg.1 h
    exact Or.inl ⟨hn, r.offset_mem⟩
  | bytes b i =>
    obtain ⟨hoff, halign, hcap⟩ := State.locate_eq_bytes.1 h
    have hwindow : off = 0x10000 + i ∨ off = 0x20000 + i := by
      cases b with
      | ibuf => exact Or.inl hoff
      | obuf => exact Or.inr hoff
    exact Or.inr ⟨i, hwindow, halign, hcap⟩

theorem State.locate_eq_none {s : State} {off : Nat} {n : Size} (h : ¬admittedOffset s.config.bufCap.toNat off n) :
    s.locate off n = none :=
  Option.eq_none_iff_forall_ne_some.2 fun _ hp => h (State.admittedOffset_of_locate hp)

/-- A read of a place is answered with data, free or not. -/
theorem State.readPlace_data (s : State) (p : Place) (n : Size) : ∃ v, (s.readPlace p n).2 = .data v := by
  cases hb : s.busy with
  | false =>
    cases p with
    | reg r => exact ⟨_, congrArg Prod.snd (State.readPlace_reg hb r n)⟩
    | bytes b i => exact ⟨_, congrArg Prod.snd (State.readPlace_bytes hb b i n)⟩
  | true =>
    by_cases hp : p = .reg .status
    · exact ⟨s.statusWord, by rw [hp, State.readPlace_status]⟩
    · exact ⟨_, congrArg Prod.snd (State.readPlace_busy hb hp n)⟩

/-- Settles O41: an access is of a place exactly when R52 or R53 admits it; a place answers data or an
acknowledgement. -/
theorem accessIsAdmittedOrBusError : Obligations.AccessIsAdmittedOrBusError := by
  refine fun s off n w hr => ⟨fun hoff => ?_, fun hoff => ?_⟩
  · obtain ⟨p, hp⟩ := State.locate_of_admittedOffset hoff
    obtain ⟨v, hv⟩ := s.readPlace_data p n
    constructor
    · rw [State.access_read_place hr hp, hv]
      exact Response.noConfusion
    · rw [State.access_write_place hr hp]
      exact Response.noConfusion
  · have hnone : s.admitted (s.config.base + off) n = none := by
      rw [State.admitted_at_base hr, State.locate_eq_none hoff]
    obtain ⟨hread, hwrite⟩ := State.access_unadmitted hnone
    exact ⟨hread, hwrite w⟩

end Sys2Proof.Machine
end

section
/-! PROOFS of the statements on the command word (30_encoding.md section 1): which words decode to which command, which
decode to none, and what the command cycle does with a word of the second kind. -/

namespace Sys2Proof

/-! ### The words that decode to a command -/

/-- A word with RSV = 0 decodes by its OP alone (30_encoding.md R70). -/
theorem decode_opcode_word {op : Byte} {i : Instr} : decode ((0 : BitVec 24) ++ op) = .ok i ↔ op = opcode i := by
  have hrsv : rsvField ((0 : BitVec 24) ++ op) = 0 := Machine.extract_append_high 0 op
  have hop : opField ((0 : BitVec 24) ++ op) = op := Machine.extract_append_low 0 op
  rw [decode_eq_ok, hrsv, hop]
  exact and_iff_right rfl

/-- Settles O2: the word decodes to `i` exactly when OP is the opcode of `i`, and each command stands in one row. -/
theorem opcodeMapIsAsListed : Obligations.OpcodeMapIsAsListed := by
  intro op i
  rw [decode_opcode_word]
  cases i <;> simp [opcode]

/-! ### The words that decode to none -/

/-- The opcodes are the bytes 0x01 to 0x09 (30_encoding.md R72). -/
theorem forall_ne_opcode {op : Byte} : (∀ i, op ≠ opcode i) ↔ op = 0 ∨ 0x0A ≤ op.toNat := by
  simp only [ne_eq, ← commandOf_eq_some, ← Option.eq_none_iff_forall_ne_some]
  revert op
  decide

/-- The illegal words, by their fields (30_encoding.md R73). -/
theorem forall_decode_ne_ok {w : Word} :
    (∀ i, decode w ≠ .ok i) ↔ opField w = 0 ∨ 0x0A ≤ (opField w).toNat ∨ rsvField w ≠ 0 := by
  calc (∀ i, decode w ≠ .ok i) ↔ (∀ i, rsvField w = 0 → opField w ≠ opcode i) := by
        simp only [ne_eq, decode_eq_ok, not_and]
    _ ↔ (rsvField w = 0 → opField w = 0 ∨ 0x0A ≤ (opField w).toNat) := by rw [forall_comm, forall_ne_opcode]
    _ ↔ opField w = 0 ∨ 0x0A ≤ (opField w).toNat ∨ rsvField w ≠ 0 := by rw [imp_iff_or_not, or_assoc]

end Sys2Proof

namespace Sys2Proof.Machine

/-- An illegal word ends with ILLEGAL_COMMAND in every state, the pointers not looked at (40_command_cycle.md R102). -/
theorem execWord_illegal {w : Word} (h : ∀ i, decode w ≠ .ok i) (s : State) :
    execWord w s = .next (s.fail .illegalCommand) := by
  unfold execWord
  cases hd : decode w with
  | ok i => exact absurd hd (h i)
  | error e => rfl

theorem complete_illegal {s : State} (h : ∀ i, decode s.cmdLatch ≠ .ok i) :
    complete s = .next (s.fail .illegalCommand).completed := by
  rw [complete, execWord_illegal h, onNext]

/-- Settles O4: the fields of an illegal word, the write that accepts it, and its completion. -/
theorem illegalWordCompletesWithIllegalCommand : Obligations.IllegalWordCompletesWithIllegalCommand :=
  ⟨fun _ => forall_decode_ne_ok, rfl, fun s w hw hb hr =>
    ⟨State.access_write_reg_idle hr hb .cmd w, complete_illegal (s := s.accept w) hw⟩⟩

end Sys2Proof.Machine
end

section
/-! PROOFS of the statements on the command cycle (40_command_cycle.md): the acceptance of a command word, the pointer
check, Append, and what a failing command writes. -/

namespace Sys2Proof.Machine

/-! ### How a command ends -/

/-- A rule that runs to its end sets ERR to OK, but for VDEC, which writes VALUE and COUNT and then fails on a count
of 0 or less (40_command_cycle.md R106, R107, 41_varint.md R126). -/
theorem Effect.ok_or_vdec_failed {s t : State} {i : Instr} (h : Effect s i t) :
    t.err = .ok ∨
      i = .vdec ∧ ∃ v c e, e ∈ [ErrCode.bufferTooShort, .varintTooLong] ∧ t = (s.setDecoded v c).fail e := by
  cases h with
  | @vdec v c hd =>
    rcases finishVdec_cases s v c with ⟨-, hend⟩ | ⟨-, hend⟩ | ⟨-, hend⟩ <;> rw [hend]
    · exact Or.inr ⟨rfl, v, c, _, by simp, rfl⟩
    · exact Or.inr ⟨rfl, v, c, _, by simp, rfl⟩
    · exact Or.inl rfl
  | _ => exact Or.inl rfl

/-- A command answers BAD_POINTERS only when the pointer check fails (40_command_cycle.md R103). -/
theorem exec_err_ne_badPointers {i : Instr} {s t : State} (hp : s.pointersOk = true) (h : exec i s = .next t) :
    t.err ≠ .badPointers := by
  intro herr
  rcases exec_next h with ⟨e, -, hbad, rfl⟩ | ⟨-, effect⟩
  · have hfalse : s.pointersOk = false := hbad.1 herr
    simp [hp] at hfalse
  · rcases effect.ok_or_vdec_failed with hok | ⟨-, v, c, e, he, rfl⟩
    · simp [hok] at herr
    · have hbad : e = .badPointers := herr
      simp [hbad] at he

/-- All a command that ends with an error code has written (40_command_cycle.md R106). -/
theorem exec_failed {i : Instr} {s t : State} (h : exec i s = .next t) (hne : t.err ≠ .ok) :
    (∃ e, t = s.fail e) ∨ i = .vdec ∧ ∃ v c e, t = (s.setDecoded v c).fail e := by
  rcases exec_next h with ⟨e, -, -, rfl⟩ | ⟨-, effect⟩
  · exact Or.inl ⟨e, rfl⟩
  · rcases effect.ok_or_vdec_failed with hok | ⟨hi, v, c, e, -, rfl⟩
    · exact absurd hok hne
    · exact Or.inr ⟨hi, v, c, e, rfl⟩

/-! ### The statements -/

/-- Settles O5: the two sides of the pointer check, by `exec_badPointers` and `exec_err_ne_badPointers`. -/
theorem badPointersStopEveryCommand : Obligations.BadPointersStopEveryCommand := by
  refine ⟨rfl, fun i s => ⟨fun hbad => ?_, fun hok t h => ?_⟩⟩
  · have hp : s.pointersOk = false := Bool.eq_false_iff.2 fun hp => hbad (s.pointersOk_iff.1 hp)
    exact exec_badPointers hp i
  · exact exec_err_ne_badPointers (s.pointersOk_iff.2 hok) h

/-- Settles O12: an Append that fits leaves `appended`, whose bytes are those of `writeBytes` at OUT_LEN. -/
theorem appendIsAllOrNothing : Obligations.AppendIsAllOrNothing :=
  ⟨rfl, fun s bs => ⟨State.append_overflows, fun hfits =>
    ⟨s.appended bs, State.append_fits hfits, rfl, State.outLen_appended hfits,
      fun k hk => s.obuf.read_writeBytes_inside s.outLen.toNat bs k hk,
      fun a ha => s.obuf.read_writeBytes_outside s.outLen.toNat bs a ha⟩⟩⟩

/-- Settles O14: `exec_failed`, the second case of which is VDEC's alone. -/
theorem failingCommandWritesNothing : Obligations.FailingCommandWritesNothing := by
  intro i s t h hne
  rcases exec_failed h hne with ⟨e, rfl⟩ | ⟨hi, v, c, e, rfl⟩
  · exact ⟨fun _ => rfl, fun _ => rfl⟩
  · exact ⟨fun hnot => absurd hi hnot, fun _ => rfl⟩

/-- Settles O6: a write of the register CMD, with BUSY = 0 and with BUSY = 1. -/
theorem cmdWriteIsAcceptedOrOverruns : Obligations.CmdWriteIsAcceptedOrOverruns := by
  refine fun s w hr => ⟨fun hidle => State.access_write_reg_idle hr hidle .cmd w, fun hbusy => ?_⟩
  calc (s.access (.write (s.config.base + 0x08) .four w)).1 = s.writePlace (.reg .cmd) .four w :=
        congrArg Prod.fst (State.access_write_reg hr .cmd w)
    _ = { s with ovr := true } := State.writePlace_busy hbusy _ _ _

end Sys2Proof.Machine
end

section
/-! PROOFS of the statements on the varint commands (41_varint.md): when DecodeRaw overflows or finds no terminal byte,
and what VDECRAW, VDEC and VENC leave in the state. -/

namespace Sys2Proof.Machine

/-! ### DecodeRaw -/

/-- COUNT is 0 only where no byte is a terminal one: at a terminal byte it counts that byte, with either sign
(41_varint.md R122, R123). -/
theorem continues_of_decodeRaw_count_zero {l : List (Option Byte)} {v : DWord} (h : decodeRaw l = .ok (v, 0)) :
    ∃ cs : List Byte, l = cs.map some ∧ ∀ c ∈ cs, continues c = true := by
  obtain ⟨cs, hcs, rfl | ⟨rest, rfl⟩ | ⟨b, rest, hb, rfl⟩⟩ := varint_split l
  · exact ⟨cs, rfl, hcs⟩
  · simp [decodeRaw_unwritten cs rest hcs] at h
  · exfalso
    by_cases ho : 10 ≤ cs.length ∨ cs.length = 9 ∧ 1 < b.toNat
    · rw [decodeRaw_overflow cs b rest hcs hb ho, Except.ok.injEq, Prod.mk.injEq] at h
      omega
    · obtain ⟨-, hvalue⟩ := decodeRaw_value cs b rest hcs hb (by omega)
      rw [hvalue, Except.ok.injEq, Prod.mk.injEq] at h
      omega

/-- Settles O18: where the terminal byte does not overflow, the count is positive. -/
theorem decodeRawOverflows : Obligations.DecodeRawOverflows := by
  refine fun cs b rest hcs hb => ⟨decodeRaw_overflow cs b rest hcs hb, fun h => ?_⟩
  by_contra hfits
  obtain ⟨-, hvalue⟩ := decodeRaw_value cs b rest hcs hb (by omega)
  rw [hvalue, Except.ok.injEq, Prod.mk.injEq] at h
  omega

/-- Settles O19: `decodeRaw_tooShort` and its converse. -/
theorem decodeRawTooShort : Obligations.DecodeRawTooShort := by
  refine fun bs => ⟨decodeRaw_tooShort bs, fun h => ?_⟩
  obtain ⟨cs, hbs, hcs⟩ := continues_of_decodeRaw_count_zero h
  rw [List.map_inj_right fun _ _ => Option.some.inj] at hbs
  exact hbs ▸ hcs

/-! ### The input window as the statements write it -/

theorem forall_continues_iff {cs : List Byte} : (∀ c ∈ cs, continues c = true) ↔ ∀ c ∈ cs, 128 ≤ c.toNat := by
  simp only [continues_iff]

/-- A varint's bytes and what follows them, cut before the terminal byte. -/
theorem map_some_snoc_append (cs : List Byte) (b : Byte) (rest : List (Option Byte)) :
    (cs ++ [b]).map some ++ rest = cs.map some ++ some b :: rest := by
  simp

section Window

variable {s : State} {cs : List Byte} {b : Byte} {rest : List (Option Byte)}

/-- A window whose varint has a value (41_varint.md R121). -/
theorem State.decodeRaw_window_value (hw : s.window = (cs ++ [b]).map some ++ rest) (hcs : ∀ c ∈ cs, 128 ≤ c.toNat)
    (hb : b.toNat < 128) (hfits : cs.length < 9 ∨ cs.length = 9 ∧ b.toNat ≤ 1) :
    varintSum (cs ++ [b]) < 2 ^ 64 ∧
      decodeRaw s.window = .ok (BitVec.ofNat 64 (varintSum (cs ++ [b])), ((cs.length + 1 : Nat) : Int)) := by
  rw [hw, map_some_snoc_append]
  exact decodeRaw_value cs b rest (forall_continues_iff.2 hcs) ((not_continues_iff b).2 hb) hfits

/-- A window whose varint overflows (41_varint.md R122). -/
theorem State.decodeRaw_window_overflow (hw : s.window = (cs ++ [b]).map some ++ rest) (hcs : ∀ c ∈ cs, 128 ≤ c.toNat)
    (hb : b.toNat < 128) (hover : 10 ≤ cs.length ∨ cs.length = 9 ∧ 1 < b.toNat) :
    decodeRaw s.window = .ok (0, -(cs.length + 1 : Int)) := by
  rw [hw, map_some_snoc_append]
  exact decodeRaw_overflow cs b rest (forall_continues_iff.2 hcs) ((not_continues_iff b).2 hb) hover

/-- A window with no terminal byte (41_varint.md R123). -/
theorem State.decodeRaw_window_tooShort (hw : s.window = cs.map some) (hcs : ∀ c ∈ cs, 128 ≤ c.toNat) :
    decodeRaw s.window = .ok (0, 0) := by
  rw [hw, decodeRaw_tooShort cs (forall_continues_iff.2 hcs)]

/-- A window with an unwritten byte before any terminal byte (40_command_cycle.md R108). -/
theorem State.decodeRaw_window_unwritten (hw : s.window = cs.map some ++ none :: rest)
    (hcs : ∀ c ∈ cs, 128 ≤ c.toNat) : decodeRaw s.window = .error (.unwritten cs.length) := by
  rw [hw, decodeRaw_unwritten cs rest (forall_continues_iff.2 hcs)]

/-- The bytes of a varint in the window end at IN_LEN or before it. -/
theorem State.inPtr_add_le_inLen (hw : s.window = (cs ++ [b]).map some ++ rest) :
    s.inPtr.toNat + cs.length + 1 ≤ s.inLen.toNat := by
  have hlen := s.length_window
  simp only [hw, List.length_append, List.length_map, List.length_singleton] at hlen
  omega

end Window

/-! ### VDEC and VDECRAW -/

theorem State.setDecoded_natCast (s : State) (v : DWord) (n : Nat) :
    s.setDecoded v (n : Int) = { s with value := v, count := BitVec.ofNat 32 n } := by
  rw [State.setDecoded, BitVec.ofInt_natCast]

/-- VDEC's end on a count of 0 (41_varint.md R126). -/
theorem State.finishVdec_zero (s : State) (v : DWord) : s.finishVdec v 0 = (s.setDecoded v 0).fail .bufferTooShort :=
  if_pos rfl

/-- VDEC's end on a negative count (41_varint.md R126). -/
theorem State.finishVdec_neg (s : State) (v : DWord) {c : Int} (h : c < 0) :
    s.finishVdec v c = (s.setDecoded v c).fail .varintTooLong := by
  rw [State.finishVdec, if_neg (by omega), if_pos h]

/-- VDEC's end on a positive count, which advances the cursor (41_varint.md R126). -/
theorem State.finishVdec_succ (s : State) (v : DWord) (n : Nat) :
    s.finishVdec v ((n + 1 : Nat) : Int) = { s with value := v, count := BitVec.ofNat 32 (n + 1),
                                                    inPtr := BitVec.ofNat 16 (s.inPtr.toNat + n + 1), err := .ok } := by
  rw [State.finishVdec, if_neg (by omega), if_neg (by omega), State.setDecoded_natCast]
  rfl

/-- Settles O16: what the decoder answers for each window, and VDEC's end on that answer. -/
theorem vdecOutcomes : Obligations.VdecOutcomes := by
  refine ⟨decode_eq_ok.2 ⟨rfl, rfl⟩, fun s hbad => exec_badPointers hbad .vdec, fun s hp =>
    ⟨fun cs b rest hw hcs hb hfits => ?_, fun cs b rest hw hcs hb hover => ?_, fun cs hw hcs => ?_,
      fun cs rest hw hcs => execVdec_stopped hp (State.decodeRaw_window_unwritten hw hcs)⟩⟩
  · obtain ⟨hsum, hd⟩ := State.decodeRaw_window_value hw hcs hb hfits
    refine ⟨hsum, State.inPtr_add_le_inLen hw, ?_⟩
    rw [← State.finishVdec_succ]
    exact execVdec_decoded hp hd
  · have hd := State.decodeRaw_window_overflow hw hcs hb hover
    exact (execVdec_decoded hp hd).trans (congrArg _ (s.finishVdec_neg 0 (by omega)))
  · have hd := State.decodeRaw_window_tooShort hw hcs
    exact (execVdec_decoded hp hd).trans (congrArg _ (s.finishVdec_zero 0))

/-- Settles O17: what the decoder answers for each window, written to VALUE and COUNT. -/
theorem vdecrawOutcomes : Obligations.VdecrawOutcomes := by
  refine ⟨decode_eq_ok.2 ⟨rfl, rfl⟩, fun s hbad => exec_badPointers hbad .vdecraw, fun s hp =>
    ⟨fun cs b rest hw hcs hb hfits => ?_,
      fun cs b rest hw hcs hb hover => execVdecraw_decoded hp (State.decodeRaw_window_overflow hw hcs hb hover),
      fun cs hw hcs => execVdecraw_decoded hp (State.decodeRaw_window_tooShort hw hcs),
      fun cs rest hw hcs => execVdecraw_stopped hp (State.decodeRaw_window_unwritten hw hcs)⟩⟩
  obtain ⟨hsum, hd⟩ := State.decodeRaw_window_value hw hcs hb hfits
  have hexec := execVdecraw_decoded hp hd
  rw [State.setDecoded_natCast] at hexec
  exact ⟨hsum, hexec⟩

/-! ### VENC -/

/-- Settles O20: VENC's Append of the encoding fits or overflows, and one that fits leaves `appended`. -/
theorem vencOutcomes : Obligations.VencOutcomes := by
  refine ⟨decode_eq_ok.2 ⟨rfl, rfl⟩, fun s hbad => exec_badPointers hbad .venc, fun s hp =>
    ⟨fun hfits => ⟨(s.appended (encodeVarint s.value)).succeed, execVenc_fits hp hfits, rfl, fun k hk => ?_,
      fun a ha => ?_⟩, execVenc_overflows hp⟩⟩
  · exact s.obuf.read_writeBytes_inside s.outLen.toNat (encodeVarint s.value) k hk
  · exact s.obuf.read_writeBytes_outside s.outLen.toNat (encodeVarint s.value) a ha

end Sys2Proof.Machine
end

section
/-! PROOFS of the statements on the hex commands (42_hex.md): the digits, and what HEXDEC and HEXENC leave in the
state. -/

namespace Sys2Proof.Machine

/-! ### The digits -/

theorem hexDigit_decimal {k : Nat} (h : k < 10) : hexDigit k = BitVec.ofNat 8 (0x30 + k) :=
  if_pos (Nat.le_of_lt_succ h)

theorem hexDigit_letter {k : Nat} (h : 10 ≤ k) : hexDigit k = BitVec.ofNat 8 (0x61 + (k - 10)) := by
  rw [hexDigit, if_neg (by omega), Nat.add_sub_assoc h]

/-- The uppercase letters, which are read and never written (42_hex.md R150). -/
theorem hexval_uppercase : ∀ k < 6, hexval (BitVec.ofNat 8 (0x41 + k)) = some (10 + k) := by
  decide

/-- Settles O27: a decimal or lowercase digit is the one written for its value, and `hexval_hexDigit` reads it back. -/
theorem hexDigitTables : Obligations.HexDigitTables := by
  refine ⟨fun k hk => ?_, fun k hk => ?_, hexval_uppercase, fun c hdecimal hlower hupper => ?_,
    fun k => hexDigit_decimal, fun k hk _ => hexDigit_letter hk⟩
  · rw [← hexDigit_decimal hk]
    exact hexval_hexDigit k (by omega)
  · have hread := hexval_hexDigit (10 + k) (by omega)
    rwa [hexDigit_letter (by omega), Nat.add_sub_cancel_left] at hread
  · rw [hexval, if_neg hdecimal, if_neg hlower, if_neg hupper]

/-! ### HEXDEC -/

section Window

variable {s : State} {ps : List (Byte × Byte)} {out : List Byte}

/-- A window of good pairs (42_hex.md R151). -/
theorem State.hexDecode_window_pairs (hw : s.window = pairText ps) (hps : List.Forall₂ spells ps out) :
    hexDecode s.window = .ok out := by
  rw [hw, hexDecode_pairs hps]

/-- A window of an odd number of characters, whatever they are (42_hex.md R151). -/
theorem State.hexDecode_window_odd (h : (s.inLen.toNat - s.inPtr.toNat) % 2 = 1) :
    hexDecode s.window = .error (.failed .invalidInput) :=
  hexDecode_odd (by rwa [s.length_window])

/-- A window whose pair after the good ones stops the decoder, at its first character or at its second
(42_hex.md R151). -/
theorem State.hexDecode_window_stops {c d : Option Byte} {rest : List (Option Byte)} {e : Stop}
    (heven : (s.inLen.toNat - s.inPtr.toNat) % 2 = 0) (hw : s.window = pairText ps ++ c :: d :: rest)
    (hps : List.Forall₂ spells ps out)
    (hstop : hexDigitAt (2 * ps.length) c = .error e ∨
      ∃ x, hexDigitAt (2 * ps.length) c = .ok x ∧ hexDigitAt (2 * ps.length + 1) d = .error e) :
    hexDecode s.window = .error e := by
  have hlen := s.length_window
  simp only [hw, List.length_append, length_pairText, List.length_cons] at hlen
  rw [hw]
  exact hexDecode_after_pairs hps c d rest (by omega) e hstop

end Window

/-- Settles O28: what the decoder answers for each window, and HEXDEC's end on that answer. -/
theorem hexdecOutcomes : Obligations.HexdecOutcomes := by
  refine ⟨decode_eq_ok.2 ⟨rfl, rfl⟩, fun s hbad => exec_badPointers hbad .hexdec, fun s hp =>
    ⟨fun ps out hw hps hfits => ?_,
      fun ps out hw hps => execHexdec_overflows hp (State.hexDecode_window_pairs hw hps),
      fun hodd => execHexdec_failed hp (State.hexDecode_window_odd hodd),
      fun ps out c d rest heven hw hps => ?_⟩⟩
  · have hnext := execHexdec_fits hp (State.hexDecode_window_pairs hw hps) hfits
    refine ⟨(s.appended out).consumeInput.succeed, hnext, rfl, fun k hk => ?_, fun a ha => ?_⟩
    · exact s.obuf.read_writeBytes_inside s.outLen.toNat out k hk
    · exact s.obuf.read_writeBytes_outside s.outLen.toNat out a ha
  · have hdecode {e : Stop} := State.hexDecode_window_stops (e := e) heven hw hps
    refine ⟨?_, ?_, ?_⟩
    · rintro a rfl ha
      exact execHexdec_failed hp (hdecode (.inl (hexDigitAt_bad ha)))
    · rintro rfl
      exact execHexdec_stopped hp (hdecode (.inl rfl))
    · rintro a x rfl ha
      refine ⟨?_, ?_⟩
      · rintro b rfl hb
        exact execHexdec_failed hp (hdecode (.inr ⟨x, hexDigitAt_some ha, hexDigitAt_bad hb⟩))
      · rintro rfl
        exact execHexdec_stopped hp (hdecode (.inr ⟨x, hexDigitAt_some ha, rfl⟩))

/-! ### HEXENC -/

/-- The two digits of a byte stand at twice its index, the high one first (42_hex.md R153). -/
theorem getElem?_hexEncode (bs : List Byte) (k : Nat) (h : k < bs.length) :
    (hexEncode bs)[2 * k]? = some (hexDigit (bs[k].toNat / 16)) ∧
      (hexEncode bs)[2 * k + 1]? = some (hexDigit (bs[k].toNat % 16)) := by
  induction bs generalizing k with
  | nil => simp at h
  | cons b bs ih =>
    cases k with
    | zero => exact ⟨rfl, rfl⟩
    | succ k => exact ih k (Nat.lt_of_succ_lt_succ h)

/-- Settles O29: HEXENC's Append of the text fits or overflows, and one that fits leaves `appended`, with the digits
where `getElem?_hexEncode` finds them. -/
theorem hexencOutcomes : Obligations.HexencOutcomes := by
  refine ⟨decode_eq_ok.2 ⟨rfl, rfl⟩, fun s hbad => exec_badPointers hbad .hexenc, fun s hp =>
    ⟨fun bs hw hfits => ?_, fun bs hw hover => ?_, fun bs rest hw => execHexenc_stopped hp hw⟩⟩
  · rw [← length_hexEncode] at hfits ⊢
    have hread {j : Nat} {d : Byte} (hj : (hexEncode bs)[j]? = some d) :
        (s.appended (hexEncode bs)).obuf.read (s.outLen.toNat + j) = some d := by
      obtain ⟨hlt, rfl⟩ := List.getElem?_eq_some_iff.1 hj
      exact s.obuf.read_writeBytes_inside s.outLen.toNat (hexEncode bs) j hlt
    refine ⟨(s.appended (hexEncode bs)).consumeInput.succeed, execHexenc_fits hp hw hfits, rfl, fun k hk => ?_,
      fun a ha => s.obuf.read_writeBytes_outside s.outLen.toNat (hexEncode bs) a ha⟩
    obtain ⟨hhigh, hlow⟩ := getElem?_hexEncode bs k hk
    exact ⟨hread hhigh, hread hlow⟩
  · rw [← length_hexEncode] at hover
    exact execHexenc_overflows hp hw hover

end Sys2Proof.Machine
end

section
/-! PROOFS of the statements on the hash registry (43_registry.md): the code table, and what LKCODE, LKNAME and VALID
leave in the state on a hit and on a miss. -/

namespace Sys2Proof

/-! ### The code table -/

/-- FUNC_ID is the position of an identifier in the code table (43_registry.md R170). -/
theorem HashId.getElem?_all_funcId (h : HashId) : HashId.all[h.funcId.toNat]? = some h := by
  cases h <;> rfl

/-- Settles O33: a FUNC_ID is a position in a table of 21 rows, so it is at most 20 and gives its identifier back, as
the lookup of its code does. -/
theorem codeTableIsAsListed : Obligations.CodeTableIsAsListed := by
  refine ⟨rfl, fun h => ⟨h.mem_all, ?_, lookupByCode_code h⟩, fun g h hid => ?_, fun g h hcode => ?_, rfl⟩
  · obtain ⟨hlt, -⟩ := List.getElem?_eq_some_iff.1 h.getElem?_all_funcId
    exact Nat.le_of_lt_succ hlt
  · exact Option.some.inj (by rw [← g.getElem?_all_funcId, hid, h.getElem?_all_funcId])
  · exact Option.some.inj (by rw [← lookupByCode_code g, hcode, lookupByCode_code h])

theorem isValid_eq_true {c : DWord} : isValid c = true ↔ ∃ h : HashId, c = h.code :=
  Machine.isSome_lookupByCode

theorem isValid_eq_false {c : DWord} : isValid c = false ↔ ∀ h : HashId, c ≠ h.code := by
  rw [← Bool.not_eq_true, isValid_eq_true, not_exists]

end Sys2Proof

namespace Sys2Proof.Machine

/-! ### LKCODE, LKNAME and VALID -/

/-- What a lookup that found `h` leaves (43_registry.md R176, R177). -/
theorem State.succeed_setLookup_some (s : State) (h : HashId) :
    (s.setLookup (some h)).succeed =
      { s with found := true, funcId := h.funcId, funcCode := h.code, err := .ok } := rfl

/-- What a lookup that found nothing leaves (43_registry.md R176, R177). -/
theorem State.succeed_setLookup_none (s : State) :
    (s.setLookup none).succeed = { s with found := false, funcId := 31, funcCode := 0, err := .ok } := rfl

/-- What VALID leaves (43_registry.md R178). -/
theorem State.succeed_setFound (s : State) (b : Bool) :
    (s.setFound b).succeed = { s with found := b, err := .ok } := rfl

/-- Settles O34: LKCODE writes the row whose code is VALUE, and so VALUE itself, or what a miss leaves. -/
theorem lkcodeOutcomes : Obligations.LkcodeOutcomes := by
  refine ⟨decode_eq_ok.2 ⟨rfl, rfl⟩, fun s hbad => exec_badPointers hbad .lkcode, fun s hp =>
    ⟨fun h hhit => ?_, fun hmiss => ?_⟩⟩
  · refine (execLkcode_checked hp).trans ?_
    rw [lookupByCode_eq_some.2 hhit, State.succeed_setLookup_some, hhit]
  · refine (execLkcode_checked hp).trans ?_
    rw [lookupByCode_eq_none.2 hmiss, State.succeed_setLookup_none]

/-- Settles O35: LKNAME writes what the lookup of the whole window answers. -/
theorem lknameOutcomes : Obligations.LknameOutcomes := by
  refine ⟨decode_eq_ok.2 ⟨rfl, rfl⟩, fun s hbad => exec_badPointers hbad .lkname, fun s hp =>
    ⟨fun k h hw hnodup hmem => ?_, fun k hw hmiss => ?_, fun bs rest hw => execLkname_stopped hp hw⟩⟩
  · refine (execLkname_written hp hw).trans ?_
    rw [lookupByName_mem hnodup hmem, State.succeed_setLookup_some]
  · refine (execLkname_written hp hw).trans ?_
    rw [lookupByName_none hmiss, State.succeed_setLookup_none]

/-- Settles O36: VALID writes `isValid` of VALUE, the table's answer, to FOUND and to nothing else. -/
theorem validOutcomes : Obligations.ValidOutcomes := by
  refine ⟨decode_eq_ok.2 ⟨rfl, rfl⟩, fun s hbad => exec_badPointers hbad .valid, fun s hp =>
    ⟨fun hhit => ?_, fun hmiss => ?_⟩⟩
  · refine (execValid_checked hp).trans ?_
    rw [isValid_eq_true.2 hhit, State.succeed_setFound]
  · refine (execValid_checked hp).trans ?_
    rw [isValid_eq_false.2 hmiss, State.succeed_setFound]

end Sys2Proof.Machine
end

section
/-! PROOFS of the statement on the buffer command OUT2IN (44_buffer.md): the output bytes it moves, and what of the two
buffers it keeps. -/

namespace Sys2Proof.Machine

section Output

variable {s : State} {bs : List Byte}

/-- Output bytes that all hold a value are OUT_LEN in number. -/
theorem State.length_written_output (h : s.output = bs.map some) : bs.length = s.outLen.toNat := by
  rw [← s.length_output, h, List.length_map]

/-- The bytes moved are the first of IBUF (44_buffer.md R200). -/
theorem State.read_ibuf_moveToInput (s : State) {k : Nat} (hk : k < bs.length) :
    (s.moveToInput bs).ibuf.read k = some bs[k] := by
  have hread := s.ibuf.read_writeBytes_inside 0 bs k hk
  rwa [Nat.zero_add] at hread

/-- IBUF past the bytes moved stays (44_buffer.md R200). -/
theorem State.read_ibuf_moveToInput_past (s : State) {a : Nat} (ha : bs.length ≤ a) :
    (s.moveToInput bs).ibuf.read a = s.ibuf.read a :=
  s.ibuf.read_writeBytes_outside 0 bs a (.inr (by rwa [Nat.zero_add]))

end Output

/-- Settles O39: output bytes that are all written are moved by `moveToInput`, which leaves OBUF; an unwritten one stops
the command at its index. -/
theorem out2inOutcomes : Obligations.Out2inOutcomes := by
  refine ⟨decode_eq_ok.2 ⟨rfl, rfl⟩, fun s hbad => exec_badPointers hbad .out2in, fun s hp =>
    ⟨fun bs hout => ⟨(s.moveToInput bs).succeed, execOut2in_written hp hout, rfl,
      fun k hk => s.read_ibuf_moveToInput hk, fun a ha => s.read_ibuf_moveToInput_past ?_, fun _ => rfl⟩,
      fun bs rest hout => ?_⟩⟩
  · rwa [State.length_written_output hout]
  · have hstop := execOut2in_stopped hp hout
    rwa [Nat.zero_add] at hstop

end Sys2Proof.Machine
end

section
/-! PROOF of the statement on the model fault (60_exceptions.md section 4): nothing is refused, and a step faults only
where the pending command reads a byte of its operand that holds no value. -/

namespace Sys2Proof.Machine

/-- All a command word can mean: the command it decodes to, or the end of an illegal word (40_command_cycle.md R102,
R110). -/
theorem execWord_cases (w : Word) (s : State) :
    (∃ i, decode w = .ok i ∧ execWord w s = exec i s) ∨ execWord w s = .next (s.fail .illegalCommand) := by
  unfold execWord
  cases decode w with
  | ok i => exact Or.inl ⟨i, rfl, rfl⟩
  | error e => exact Or.inr rfl

theorem execWord_not_refused (w : Word) (s : State) (r : Refusal) : execWord w s ≠ .refused r := by
  rcases execWord_cases w s with ⟨i, -, hx⟩ | hx <;> rw [hx]
  · exact exec_not_refused i s r
  · exact nofun

/-- A completion faults only where the command that the latched word decodes to does (40_command_cycle.md R108). -/
theorem complete_fault_decoded {s : State} {f : Fault} (h : complete s = .fault f) :
    ∃ i, decode s.cmdLatch = .ok i ∧ exec i s = .fault f := by
  have hword := onNext_eq_fault h
  rcases execWord_cases s.cmdLatch s with ⟨i, hd, hx⟩ | hx <;> rw [hx] at hword
  · exact ⟨i, hd, hword⟩
  · cases hword

/-- A move of a block that has a step is the completion (40_command_cycle.md R101). -/
theorem step_eq_complete {s : State} (ht : s.nextTurn.1 = .block) (hready : s.nextTurn.2.blockReady = true) :
    step s = complete s.nextTurn.2 := by
  unfold step move
  rw [ht]
  exact if_pos hready

/-- A step faults only while a command is pending, at a byte of that command's operand that holds no value
(40_command_cycle.md R108). -/
theorem step_fault_stopsAt {s : State} {f : Fault} (h : step s = .fault f) :
    s.busy = true ∧ ∃ i b n, decode s.cmdLatch = .ok i ∧ f = .uninitRead b n ∧ StopsAt s.nextTurn.2 i b n := by
  obtain ⟨ht, hready, -⟩ := step_fault h
  rw [step_eq_complete ht hready] at h
  obtain ⟨i, hd, hx⟩ := complete_fault_decoded h
  obtain ⟨b, n, rfl, -, hstop⟩ := exec_fault hx
  rw [State.nextTurn_cmdLatch] at hd
  simp only [State.blockReady, State.nextTurn_busy, Bool.and_eq_true] at hready
  exact ⟨hready.1, i, b, n, hd, rfl, hstop⟩

/-- Settles O10: of a command's two operands, the input window gives the faults in IBUF, and the output bytes, which
OUT2IN alone reads, those in OBUF. -/
theorem faultsOnlyAtUnwrittenBytes : Obligations.FaultsOnlyAtUnwrittenBytes := by
  refine fun s => ⟨step_not_refused s, fun w => execWord_not_refused w s, fun f h => ?_⟩
  obtain ⟨hbusy, i, b, n, hd, rfl, hnone, hoperand⟩ := step_fault_stopsAt h
  refine ⟨hbusy, ?_⟩
  rcases hoperand with ⟨rfl, hlo, hhi, -⟩ | ⟨rfl, hlt, rfl⟩
  · rw [State.nextTurn_inPtr] at hlo
    rw [State.nextTurn_inLen] at hhi
    exact Or.inl ⟨n, rfl, by simpa [State.buffer] using hnone, hlo, hhi⟩
  · rw [State.nextTurn_outLen] at hlt
    exact Or.inr ⟨n, rfl, by simpa [State.buffer] using hnone, hlt, hd⟩

end Sys2Proof.Machine
end

section
/-! PROOFS of the statements on the command words written out and on decode against encode (30_encoding.md section
1). -/

namespace Sys2Proof

/-- Settles O3: a word that decodes to `i` has RSV = 0 and the opcode of `i`, and a word is its two fields. -/
theorem decodeInvertsEncode : Obligations.DecodeInvertsEncode := by
  refine fun i _ => ⟨decode_opcode_word.2 rfl, fun w h => ?_⟩
  obtain ⟨hrsv, hop⟩ := decode_eq_ok.1 h
  calc w = rsvField w ++ opField w := word_eq_fields w
    _ = encode i := by rw [hrsv, hop, encode]

/-- Settles O1: a word decodes by its two fields, read off the digits; a word with a wrong field is rejected by it. -/
theorem writtenOutWordsDecode : Obligations.WrittenOutWordsDecode :=
  ⟨decode_eq_ok.2 ⟨rfl, rfl⟩, decode_eq_ok.2 ⟨rfl, rfl⟩, decode_eq_ok.2 ⟨rfl, rfl⟩, decode_eq_ok.2 ⟨rfl, rfl⟩,
    decode_eq_ok.2 ⟨rfl, rfl⟩, decode_eq_ok.2 ⟨rfl, rfl⟩, decode_eq_ok.2 ⟨rfl, rfl⟩, decode_eq_ok.2 ⟨rfl, rfl⟩,
    decode_eq_ok.2 ⟨rfl, rfl⟩, rfl, rfl, rfl⟩

end Sys2Proof
end

section
/-! PROOFS of the statements on the invariant and on what no step changes (10_state.md sections 2 to 7): what reset,
each command and each access do to the invariant, then a step. -/

namespace Sys2Proof.Machine

/-! ### The invariant after reset -/

theorem State.inv_resetWith (c : Config) : (State.resetWith c).Inv where
  buffers := ⟨.nil, nofun, .nil, nofun⟩
  flags := nofun
  paired := .inl ⟨rfl, rfl⟩
  counted := ⟨Int.neg_nonpos_of_nonneg (Int.natCast_nonneg _), show (0 : Word).toInt ≤ 10 by decide⟩

/-- Settles O57: `State.inv_resetWith`, and the default parameters looked at one by one. -/
theorem resetMeetsInvariant : Obligations.ResetMeetsInvariant :=
  ⟨State.inv_resetWith, State.inv_resetWith Config.default, by decide⟩

/-! ### The invariant over the updates of a command -/

section Updates

variable {s : State}

theorem State.Inv.fail (h : s.Inv) (e : ErrCode) : (s.fail e).Inv := { h with }

theorem State.Inv.succeed (h : s.Inv) : s.succeed.Inv := { h with }

theorem State.Inv.consumeInput (h : s.Inv) : s.consumeInput.Inv := { h with }

theorem State.Inv.advanceInput (h : s.Inv) (n : Nat) : (s.advanceInput n).Inv := { h with }

theorem State.Inv.setFound (h : s.Inv) (b : Bool) : (s.setFound b).Inv := { h with }

theorem State.Inv.completed (h : s.Inv) : s.completed.Inv := { h with flags := nofun }

theorem State.length_window_le (hp : s.pointersOk = true) : s.window.length ≤ s.cap := by
  obtain ⟨-, hcap, -⟩ := s.pointersOk_iff.1 hp
  rw [s.length_window]
  omega

/-- What a decode of the window counts is in the range of COUNT (10_state.md R31). -/
theorem State.Inv.setDecoded (h : s.Inv) (hp : s.pointersOk = true) {v : DWord} {c : Int}
    (hd : decodeRaw s.window = .ok (v, c)) : (s.setDecoded v c).Inv := by
  obtain ⟨hlow, -, hhigh⟩ := decodeRaw_count hd
  have hwindow := State.length_window_le hp
  have hcap := s.cap_lt
  have hcount : (BitVec.ofInt 32 c).toInt = c := by
    rw [BitVec.toInt_ofInt]
    exact Int.bmod_eq_of_le (by omega) (by omega)
  refine { h with counted := ?_ }
  change -(s.cap : Int) ≤ (BitVec.ofInt 32 c).toInt ∧ (BitVec.ofInt 32 c).toInt ≤ 10
  omega

/-- Either end of VDEC, after the decode is written. -/
theorem State.Inv.finishVdec {v : DWord} {c : Int} (h : (s.setDecoded v c).Inv) : (s.finishVdec v c).Inv := by
  rcases finishVdec_cases s v c with ⟨-, hend⟩ | ⟨-, hend⟩ | ⟨-, hend⟩ <;> rw [hend]
  · exact h.fail _
  · exact h.fail _
  · exact (h.advanceInput _).succeed

/-- A lookup writes one row of the code table, or none (10_state.md R36, R37). -/
theorem State.Inv.setLookup (h : s.Inv) (o : Option HashId) : (s.setLookup o).Inv := by
  cases o with
  | none => exact { h with paired := .inl ⟨rfl, rfl⟩ }
  | some i => exact { h with paired := .inr ⟨i, rfl, rfl⟩ }

/-- Bytes stored inside BUF_CAP keep a buffer canonical and inside it (10_state.md R35). -/
theorem State.Inv.storeBytes (h : s.Inv) (b : Buffer) {i : Nat} {bs : List Byte} (hi : i + bs.length ≤ s.cap) :
    (s.setBuffer b ((s.buffer b).writeBytes i bs)).Inv := by
  obtain ⟨hiwf, hiin, howf, hoin⟩ := h.buffers
  cases b with
  | ibuf =>
    exact { h with buffers := ⟨Memory.wf_writeBytes i bs hiwf, Memory.within_writeBytes i bs hi hiin, howf, hoin⟩ }
  | obuf =>
    exact { h with buffers := ⟨hiwf, hiin, Memory.wf_writeBytes i bs howf, Memory.within_writeBytes i bs hi hoin⟩ }

theorem State.Inv.appended (h : s.Inv) {bs : List Byte} (hfits : s.outLen.toNat + bs.length ≤ s.cap) :
    (s.appended bs).Inv := { h.storeBytes .obuf hfits with }

theorem State.Inv.moveToInput (h : s.Inv) (hp : s.pointersOk = true) {bs : List Byte} (hout : s.output = bs.map some) :
    (s.moveToInput bs).Inv := by
  obtain ⟨-, -, hcap⟩ := s.pointersOk_iff.1 hp
  have hlen := State.length_written_output hout
  exact { h.storeBytes .ibuf (i := 0) (bs := bs) (by omega) with }

/-! ### The invariant over the writes of a host -/

/-- Of all registers, only CMD holds part of the invariant, and an accepted command has DONE = 0 (10_state.md R26). -/
theorem State.Inv.writeReg (h : s.Inv) (r : Reg) (w : Word) : (s.writeReg r w).Inv := by
  cases r with
  | cmd => exact { h with flags := nofun }
  | _ => exact { h with }

theorem State.Inv.hostTurn (h : s.Inv) : s.hostTurn.Inv := by
  obtain ⟨host, u, hturn, heffect⟩ := s.hostTurn_effect
  have hu : u.Inv := by
    rcases heffect with ⟨k, rfl⟩ | ⟨-, rfl⟩ | ⟨-, -, r, w, -, -, rfl⟩ | ⟨-, b, i, n, w, hi, rfl⟩
    · exact { h with }
    · exact { h with }
    · exact h.writeReg r w
    · exact h.storeBytes b (by rwa [length_bytesOfWord])
  rw [hturn]
  exact { hu with }

end Updates

/-! ### The invariant over a step -/

/-- Every rule of a command keeps the invariant (40_command_cycle.md R110). -/
theorem Effect.keeps_inv {s t : State} {i : Instr} (heffect : Effect s i t) (hp : s.pointersOk = true) (h : s.Inv) :
    t.Inv := by
  cases heffect with
  | vdecraw hd => exact (h.setDecoded hp hd).succeed
  | vdec hd => exact (h.setDecoded hp hd).finishVdec
  | venc hfits => exact (h.appended hfits).succeed
  | hexdec _ _ hfits => exact (h.appended hfits).consumeInput.succeed
  | hexenc _ hfits => exact (h.appended hfits).consumeInput.succeed
  | lkcode => exact (h.setLookup _).succeed
  | lkname _ => exact (h.setLookup _).succeed
  | valid => exact (h.setFound _).succeed
  | out2in hout => exact (h.moveToInput hp hout).succeed

theorem exec_keeps_inv {i : Instr} {s t : State} (h : s.Inv) (hexec : exec i s = .next t) : t.Inv := by
  rcases exec_next hexec with ⟨e, -, -, rfl⟩ | ⟨hp, heffect⟩
  · exact h.fail e
  · exact heffect.keeps_inv hp h

theorem complete_keeps_inv {s t : State} (h : s.Inv) (hc : complete s = .next t) : t.Inv := by
  rcases complete_next hc with rfl | ⟨i, u, hexec, rfl⟩
  · exact (h.fail _).completed
  · exact (exec_keeps_inv h hexec).completed

theorem State.Inv.releaseReset {s : State} (h : s.Inv) : s.releaseReset.Inv := by
  unfold State.releaseReset
  split_ifs
  · exact { State.inv_resetWith s.config with }
  · exact h

theorem State.Inv.nextTurn {s : State} (h : s.Inv) : s.nextTurn.2.Inv := by
  obtain ⟨ts, n, hplan⟩ := s.nextTurn_state
  rw [hplan]
  exact { h with }

/-- Settles O58: the invariant is kept by the move of the host, by a completion and by both edges of the reset input. -/
theorem stepKeepsInvariant : Obligations.StepKeepsInvariant := by
  intro s t h hstep
  have hturn := h.nextTurn
  rcases step_next hstep with ⟨-, rfl⟩ | ⟨-, -, hc⟩ | ⟨-, -, rfl⟩ | ⟨-, rfl⟩ | ⟨-, rfl⟩
  · exact hturn.hostTurn
  · exact complete_keeps_inv hturn hc
  · exact hturn
  · exact { hturn with }
  · exact hturn.releaseReset

/-! ### What no step changes -/

/-- Two states with the same parameters and the same host program. -/
def State.SameSetup (s t : State) : Prop := t.config = s.config ∧ t.host.program = s.host.program

theorem State.runLine_program (s : State) (l : HostLine) : (s.runLine l).host.program = s.host.program := by
  cases l with
  | ifGoto c l =>
    rw [State.runLine]
    split_ifs <;> rfl
  | _ => rfl

/-- What one bus operation leaves of the host: its program, its position, the response and whether a bus error has come
in this line; and, but for a `wait`, the accesses left (20_memory.md R54). -/
theorem State.perform_host (s : State) (op : BusOp) :
    (s.perform op).host.program = s.host.program ∧ (s.perform op).host.pos = s.host.pos ∧
    (s.perform op).host.resp = some (s.access op.access).2 ∧
    (s.perform op).host.failed = (s.host.failed || decide ((s.access op.access).2 = .busError)) ∧
    ((∀ a, op ≠ .poll a) → (s.perform op).host.queue = s.host.queue) := by
  have hreceived := State.receive_host (s.access op.access).1 op (s.access op.access).2
  rw [(s.access_keeps op.access).1] at hreceived
  exact hreceived

theorem State.hostTurn_program (s : State) : s.hostTurn.host.program = s.host.program := by
  cases hq : s.host.queue with
  | cons op rest =>
    rw [State.hostTurn_access hq]
    exact ((s.enqueue rest).perform_host op).1
  | nil =>
    cases hl : s.host.program[s.host.pos]? with
    | some l => rw [State.hostTurn_line hq hl, State.runLine_program]
    | none => simp [State.hostTurn, hq, hl]

theorem State.hostTurn_config (s : State) : s.hostTurn.config = s.config := by
  obtain ⟨h, u, hturn, heffect⟩ := s.hostTurn_effect
  have hu : u.config = s.config := by
    rcases heffect with ⟨k, rfl⟩ | ⟨-, rfl⟩ | ⟨-, -, r, w, -, -, rfl⟩ | ⟨-, b, i, n, w, -, rfl⟩
    · rfl
    · rfl
    · cases r <;> rfl
    · cases b <;> rfl
  rw [hturn, ← hu]
  rfl

theorem complete_sameSetup {s t : State} (h : complete s = .next t) : s.SameSetup t := by
  rcases complete_next h with rfl | ⟨i, u, hexec, rfl⟩
  · exact ⟨rfl, rfl⟩
  · obtain ⟨-, -, -, -, -, hconfig, hhost, -⟩ := exec_untouched hexec
    exact ⟨hconfig, congrArg HostAgent.program hhost⟩

theorem State.sameSetup_releaseReset (s : State) : s.SameSetup s.releaseReset := by
  unfold State.releaseReset
  split_ifs <;> exact ⟨rfl, rfl⟩

/-- Settles O59: no kind of step touches either, and choosing the next move does not. -/
theorem stepKeepsParameters : Obligations.StepKeepsParameters := by
  intro s t h
  suffices hsame : s.nextTurn.2.SameSetup t by simpa [State.SameSetup] using hsame
  rcases step_next h with ⟨-, rfl⟩ | ⟨-, -, hc⟩ | ⟨-, -, rfl⟩ | ⟨-, rfl⟩ | ⟨-, rfl⟩
  · exact ⟨State.hostTurn_config _, State.hostTurn_program _⟩
  · exact complete_sameSetup hc
  · exact ⟨rfl, rfl⟩
  · exact ⟨rfl, rfl⟩
  · exact State.sameSetup_releaseReset _

end Sys2Proof.Machine
end

section
/-! PROOFS of the statements on the completion of a command (40_command_cycle.md section 1, 70_reset_and_hazards.md
sections 1, 2 and 4): what a move of the block does, when it comes, and what it needs. -/

namespace Sys2Proof.Machine

/-! ### A move of the block -/

theorem State.blockReady_iff (s : State) : s.blockReady = true ↔ s.busy = true ∧ s.inReset = false := by
  simp [State.blockReady]

theorem blockTurn_ready {s : State} (h : s.blockReady = true) : blockTurn s = complete s := if_pos h

theorem blockTurn_not_ready {s : State} (h : s.blockReady = false) : blockTurn s = .next s := if_neg (by simp [h])

theorem complete_decoded {s : State} {i : Instr} (h : decode s.cmdLatch = .ok i) :
    complete s = onNext State.completed (exec i s) := by
  rw [complete, execWord, h]

/-- Settles O7: the block's move is the completion of the latched word, which is `exec` of the command it decodes to; a
used-up list is filled before the move is chosen. -/
theorem stepRunsDecodedCommand : Obligations.StepRunsDecodedCommand := by
  refine fun s i _ hd hbusy hreset => ⟨fun rest hturns => ?_, fun hturns => ?_⟩
  · rw [step_block (s.blockReady_iff.2 ⟨hbusy, hreset⟩) hturns,
      complete_decoded (s := { s with turns := rest }) hd]
    cases exec i { s with turns := rest } <;> rfl
  · rcases s.refill_cases with ⟨-, hrefill⟩ | ⟨hnot, -⟩
    · rw [step_planned, State.planned_nil hturns, hrefill]
    · simp [State.blockReady, hbusy, hreset] at hnot

/-- Settles O8: the block moves by a completion or not at all. -/
theorem completionIsTheOnlyBlockStep : Obligations.CompletionIsTheOnlyBlockStep := by
  refine fun s t h => ⟨fun hidle => ?_, fun hbusy hreset => ?_⟩
  · have hstays : blockTurn s = .next s := blockTurn_not_ready (by simp [State.blockReady, hidle])
    exact Host.Outcome.next.inj (h.symm.trans hstays)
  · have hcompletes : blockTurn s = complete s := blockTurn_ready (s.blockReady_iff.2 ⟨hbusy, hreset⟩)
    obtain ⟨hb, hd, -⟩ := complete_flags (hcompletes.symm.trans h)
    exact ⟨hb, hd⟩

/-- Settles O56: reset asserted leaves the block no step and the host no place to access, and its release is
`resetBlock`. -/
theorem resetAbandonsPendingCommand : Obligations.ResetAbandonsPendingCommand := by
  intro s t hreset
  have hnone (addr : Nat) (n : Size) : s.admitted addr n = none := if_pos hreset
  refine ⟨blockTurn_not_ready (by simp [State.blockReady, hreset]),
    fun addr n => (State.access_unadmitted (hnone addr n)).1,
    fun addr n w => (State.access_unadmitted (hnone addr n)).2 w, fun h => ?_⟩
  have hrelease : s.releaseReset = s.resetBlock := if_pos hreset
  exact (Host.Outcome.next.inj h).symm.trans hrelease

/-! ### When the pending command completes -/

/-- Some run of at most `n` steps ends with the pending command completed, or with the model fault. -/
def CompletesWithin (n : Nat) (s : State) : Prop :=
  ∃ k, k ≤ n ∧ ((∃ t, core.run k s = .next t ∧ t.busy = false ∧ t.done = true) ∨
    ∃ b i, core.run k s = .fault (.uninitRead b i))

/-- Where a step leads to a state from which the command completes, one step more is enough. -/
theorem CompletesWithin.of_step {n : Nat} {s t : State} (hstep : step s = .next t) (h : CompletesWithin n t) :
    CompletesWithin (n + 1) s := by
  obtain ⟨k, hk, hrun⟩ := h
  refine ⟨k + 1, Nat.succ_le_succ hk, ?_⟩
  rwa [run_succ_next (M := core) hstep]

/-- The block's own move ends the wait: a completion answers a next state or the model fault (60_exceptions.md R214). -/
theorem CompletesWithin.of_block {s : State} {rest : List Turn} (hready : s.blockReady = true)
    (hturns : s.turns = .block :: rest) : CompletesWithin 1 s := by
  have hstep := step_block hready hturns
  refine ⟨1, le_refl 1, ?_⟩
  cases hc : complete { s with turns := rest } with
  | next t =>
    obtain ⟨hb, hd, -⟩ := complete_flags hc
    exact .inl ⟨t, run_succ_next (M := core) (hstep.trans hc) 0, hb, hd⟩
  | fault f =>
    obtain ⟨i, hexec⟩ := complete_fault hc
    obtain ⟨b, k, rfl, -⟩ := exec_fault hexec
    exact .inr ⟨b, k, run_succ_fault (M := core) (hstep.trans hc) 0⟩
  | refused r => exact absurd hc (complete_not_refused _ r)

/-- A move of the host leaves a pending command pending (70_reset_and_hazards.md R251), and the plan of moves as it
is. -/
theorem State.hostTurn_pending {s : State} (h : s.blockReady = true) :
    s.hostTurn.blockReady = true ∧ s.hostTurn.turns = s.turns ∧ s.hostTurn.delays = s.delays := by
  obtain ⟨host, u, hturn, heffect⟩ := s.hostTurn_effect
  obtain ⟨hbusy, -⟩ := s.blockReady_iff.1 h
  rw [hturn]
  rcases heffect with ⟨k, rfl⟩ | ⟨-, rfl⟩ | ⟨hidle, -⟩ | ⟨hidle, -⟩
  · exact ⟨h, rfl, rfl⟩
  · exact ⟨h, rfl, rfl⟩
  · simp [hbusy] at hidle
  · simp [hbusy] at hidle

/-- Where the command completes from every state that has only the moves `tail` left, it does so with moves of host and
block before them, a step later for each. -/
theorem CompletesWithin.of_turns {n delays : Nat} {tail : List Turn}
    (hend : ∀ u : State, u.blockReady = true → u.turns = tail → u.delays = delays → CompletesWithin (n + 1) u)
    (ms : List Turn) (hms : ∀ m ∈ ms, m = .host ∨ m = .block) {s : State} (hready : s.blockReady = true)
    (hturns : s.turns = ms ++ tail) (hdelays : s.delays = delays) : CompletesWithin (ms.length + (n + 1)) s := by
  induction ms generalizing s with
  | nil =>
    rw [List.length_nil, Nat.zero_add]
    exact hend s hready hturns hdelays
  | cons m ms ih =>
    obtain ⟨hm, hms'⟩ := List.forall_mem_cons.1 hms
    rcases hm with rfl | rfl
    · obtain ⟨hready', hturns', hdelays'⟩ := State.hostTurn_pending (s := { s with turns := ms ++ tail }) hready
      rw [List.length_cons, Nat.succ_add]
      exact .of_step (step_host hturns) (ih hms' hready' hturns' (hdelays'.trans hdelays))
    · obtain ⟨k, hk, hrun⟩ := CompletesWithin.of_block hready hturns
      exact ⟨k, by omega, hrun⟩

/-- Runs from two states with the same step are the same after it. -/
theorem run_succ_congr {M : Host.Core} {s u : M.State} (h : M.step s = M.step u) (k : Nat) :
    M.run (k + 1) s = M.run (k + 1) u := by
  simp only [Host.Core.run, h]

/-- A pending command completes from a state as it does from another with the same step. -/
theorem CompletesWithin.of_same_step {n : Nat} {s u : State} (hstep : step s = step u) (hbusy : u.busy = true)
    (h : CompletesWithin n u) : CompletesWithin n s := by
  obtain ⟨k, hk, hrun⟩ := h
  refine ⟨k, hk, ?_⟩
  cases k with
  | zero =>
    rcases hrun with ⟨t, hnext, hidle, -⟩ | ⟨b, i, hfault⟩
    · cases hnext
      simp [hbusy] at hidle
    · cases hfault
  | succ k =>
    have hsame : core.run (k + 1) s = core.run (k + 1) u :=
      run_succ_congr (M := core) hstep k
    rwa [hsame]

/-- With the list used up, the command completes after the free delay (70_reset_and_hazards.md R250; log 2). -/
theorem CompletesWithin.of_no_turns {s : State} (hready : s.blockReady = true) (hturns : s.turns = []) :
    CompletesWithin (Config.delay s.delays + 1) s := by
  rcases s.refill_cases with ⟨-, hrefill⟩ | ⟨hnot, -⟩
  · have hhost : ∀ m ∈ List.replicate (Config.delay s.delays) Turn.host, m = .host ∨ m = .block :=
      fun m hm => .inl (List.eq_of_mem_replicate hm)
    have hwait := CompletesWithin.of_turns (n := 0) (fun u hu ht _ => .of_block hu ht) _ hhost
      (s := { s with turns := List.replicate (Config.delay s.delays) .host ++ [.block], delays := s.delays + 1 })
      hready rfl rfl
    rw [List.length_replicate, ← hrefill, ← State.planned_nil hturns] at hwait
    refine .of_same_step (step_planned s) ?_ hwait
    rw [State.planned_nil hturns, hrefill]
    exact (s.blockReady_iff.1 hready).1
  · simp [hready] at hnot

/-- Settles O9: the moves of the list, then the free delay, then the block's move. -/
theorem everyAcceptedCommandCompletes : Obligations.EveryAcceptedCommandCompletes := by
  intro s hbusy hreset hms
  refine CompletesWithin.of_turns (tail := []) (fun u hu ht hd => ?_) s.turns hms
    (s.blockReady_iff.2 ⟨hbusy, hreset⟩) (s.turns.append_nil).symm rfl
  rw [← hd]
  exact .of_no_turns hu ht

/-! ### What a command needs to complete -/

/-- Settles O11: a command that stops does so at a byte of its operand that holds no value. -/
theorem commandsCompleteOnWrittenBytes : Obligations.CommandsCompleteOnWrittenBytes := by
  intro i s hin hout
  rcases exec_cases i s with ⟨e, -, -, hexec⟩ | ⟨b, k, -, -, hnone, hoperand⟩ | ⟨-, t, hexec, -⟩
  · exact ⟨_, hexec⟩
  · rcases hoperand with ⟨rfl, hlo, hhi, hi⟩ | ⟨rfl, hlt, hi⟩
    · exact absurd hnone (hin hi k hlo hhi)
    · exact absurd hnone (hout hi k hlt)
  · exact ⟨t, hexec⟩

end Sys2Proof.Machine
end

section
/-! PROOFS of the statements on varints (41_varint.md sections 1 and 2, 30_encoding.md section 2): the length of an
encoding, the round trip, and the commands that encode and decode one after the other. -/

namespace Sys2Proof.Machine

/-! ### The length of an encoding -/

theorem varintSum_snoc {cs : List Byte} {b : Byte} (hb : b.toNat < 128) :
    varintSum (cs ++ [b]) = varintSum cs + 2 ^ (7 * cs.length) * b.toNat := by
  rw [varintSum_append, varintSum, varintSum, Nat.mod_eq_of_lt hb, Nat.mul_zero, Nat.add_zero]

theorem varintSum_snoc_lt (cs : List Byte) (b : Byte) : varintSum (cs ++ [b]) < 2 ^ (7 * (cs.length + 1)) := by
  simpa using varintSum_lt (cs ++ [b])

/-- A terminal byte that is not 0 adds a bit above all the groups before it. -/
theorem two_pow_le_varintSum_snoc {cs : List Byte} {b : Byte} (hb : b.toNat < 128) (hne : b.toNat ≠ 0) :
    2 ^ (7 * cs.length) ≤ varintSum (cs ++ [b]) := by
  rw [varintSum_snoc hb]
  exact le_add_of_le_right (Nat.le_mul_of_pos_right _ (Nat.pos_of_ne_zero hne))

/-- Settles O21: the groups of the encoding bound the value from above, its terminal byte from below. -/
theorem encodeEmitsMinimalVarint : Obligations.EncodeEmitsMinimalVarint := by
  intro v
  obtain ⟨cs, b, henc, hcs, hb, hfits, hsum, hnz⟩ := encodeVarint_shape v
  have hb' := (not_continues_iff b).1 hb
  refine ⟨cs, b, henc, forall_continues_iff.1 hcs, hb', hsum, ?_, fun hne => ?_, by omega⟩
  · rw [← hsum]
    exact varintSum_snoc_lt cs b
  · rw [← hsum]
    exact two_pow_le_varintSum_snoc hb' (hnz hne)

/-- A value of at most `7 * n` bits is encoded in at most `n` bytes (41_varint.md R127). -/
theorem length_encodeVarint_le {v : DWord} {n : Nat} (hn : 0 < n) (hv : v.toNat < 2 ^ (7 * n)) :
    (encodeVarint v).length ≤ n := by
  obtain ⟨cs, b, henc, -, -, -, -, hlow, -⟩ := encodeEmitsMinimalVarint v
  rw [henc, List.length_append, List.length_singleton]
  by_cases hcs : cs = []
  · rw [hcs]
    exact hn
  · have hpow : 2 ^ (7 * cs.length) < 2 ^ (7 * n) := lt_of_le_of_lt (hlow hcs) hv
    have := (Nat.pow_lt_pow_iff_right (by decide)).1 hpow
    omega

/-! ### The round trip -/

/-- Settles O22: the encoder's bytes have the shape that `decodeRaw_value` decodes. -/
theorem varintRoundTrip : Obligations.VarintRoundTrip := by
  intro v rest
  obtain ⟨cs, b, henc, hcs, hb, hfits, hsum, -⟩ := encodeVarint_shape v
  obtain ⟨-, hvalue⟩ := decodeRaw_value cs b rest hcs hb hfits
  rw [henc, map_some_snoc_append, hvalue, hsum, BitVec.ofNat_toNat, BitVec.setWidth_eq]
  simp

/-- A value decoded from `c` bytes has at most `7 * c` bits (41_varint.md R121). -/
theorem decodeRaw_value_lt {l : List (Option Byte)} {v : DWord} {c : Int} (h : decodeRaw l = .ok (v, c)) (hc : 0 < c) :
    v.toNat < 2 ^ (7 * c.toNat) := by
  obtain ⟨cs, hcs, rfl | ⟨rest, rfl⟩ | ⟨b, rest, hb, rfl⟩⟩ := varint_split l
  · rw [decodeRaw_tooShort cs hcs, Except.ok.injEq, Prod.mk.injEq] at h
    omega
  · simp [decodeRaw_unwritten cs rest hcs] at h
  · by_cases ho : 10 ≤ cs.length ∨ cs.length = 9 ∧ 1 < b.toNat
    · rw [decodeRaw_overflow cs b rest hcs hb ho, Except.ok.injEq, Prod.mk.injEq] at h
      omega
    · obtain ⟨-, hvalue⟩ := decodeRaw_value cs b rest hcs hb (by omega)
      rw [hvalue] at h
      cases h
      calc (BitVec.ofNat 64 (varintSum (cs ++ [b]))).toNat ≤ varintSum (cs ++ [b]) := Nat.mod_le _ _
        _ < 2 ^ (7 * (cs.length + 1)) := varintSum_snoc_lt cs b

/-- Settles O23: the bytes decoded bound the value, and the value bounds its encoding. -/
theorem noShorterVarintDecodesToValue : Obligations.NoShorterVarintDecodesToValue := by
  intro v bs c h hc
  obtain ⟨-, hlen, -⟩ := decodeRaw_count h
  rw [List.length_map] at hlen
  exact ⟨length_encodeVarint_le (by omega) (decodeRaw_value_lt h hc), by omega⟩

/-! ### Two VDECs -/

/-- What VDEC leaves where the window begins with an encoding: its value, and the window past it. -/
structure DecodedVarint (s : State) (v : DWord) (rest : List (Option Byte)) (t : State) : Prop where
  value    : t.value = v
  err      : t.err = .ok
  inLen    : t.inLen = s.inLen
  pointers : t.pointersOk = true
  window   : t.window = rest

/-- A cursor advanced inside the window stays before IN_LEN, and so does not wrap. -/
theorem State.inPtr_advanceInput {s : State} {n : Nat} (hn : s.inPtr.toNat + n ≤ s.inLen.toNat) :
    (s.advanceInput n).inPtr.toNat = s.inPtr.toNat + n := by
  have := s.inLen.isLt
  rw [State.advanceInput_inPtr, BitVec.toNat_ofNat]
  exact Nat.mod_eq_of_lt (by omega)

/-- The window past its first `n` bytes (41_varint.md R126). -/
theorem State.window_advanceInput {s : State} {n : Nat} (hn : s.inPtr.toNat + n ≤ s.inLen.toNat) :
    (s.advanceInput n).window = s.window.drop n := by
  rw [State.window, State.window, Memory.drop_span, State.inPtr_advanceInput hn, Nat.sub_add_eq]
  rfl

/-- VDEC on an encoding takes it off the window (41_varint.md R126). -/
theorem exec_vdec_encoded {s : State} {v : DWord} {rest : List (Option Byte)} (hp : s.pointersOk = true)
    (hw : s.window = (encodeVarint v).map some ++ rest) : ∃ t, exec .vdec s = .next t ∧ DecodedVarint s v rest t := by
  obtain ⟨hpos, -⟩ := length_encodeVarint v
  have hd := varintRoundTrip v rest
  rw [← hw] at hd
  have hexec := execVdec_decoded hp hd
  have hlen := s.length_window
  rw [hw, List.length_append, List.length_map] at hlen
  obtain ⟨hle, hcap, hout⟩ := s.pointersOk_iff.1 hp
  have hn : s.inPtr.toNat + (encodeVarint v).length ≤ s.inLen.toNat := by omega
  have hwindow := State.window_advanceInput hn
  rw [hw, List.drop_left' (by rw [List.length_map])] at hwindow
  have hptr := State.inPtr_advanceInput hn
  obtain ⟨hzero, -⟩ | ⟨hneg, -⟩ | ⟨-, hend⟩ := finishVdec_cases s v (encodeVarint v).length
  · omega
  · omega
  · rw [hend, Int.toNat_natCast] at hexec
    refine ⟨_, hexec, rfl, rfl, rfl, (State.pointersOk_iff _).2 ⟨?_, hcap, hout⟩, hwindow⟩
    exact hptr.trans_le hn

/-- Settles O24: each VDEC takes one encoding off the window. -/
theorem twoVdecsReadRecordHeader : Obligations.TwoVdecsReadRecordHeader := by
  intro s code len digest hp hw
  rw [List.append_assoc, List.map_append, List.map_append] at hw
  obtain ⟨t, hfirst, ht⟩ := exec_vdec_encoded hp hw
  obtain ⟨u, hsecond, hu⟩ := exec_vdec_encoded ht.pointers ht.window
  exact ⟨t, u, hfirst, ht.value, hsecond, hu.value, hu.err, hu.window, hu.inLen.trans ht.inLen⟩

/-! ### VENC, OUT2IN and VDECRAW -/

/-- Bytes appended to an empty output are the output (40_command_cycle.md R105). -/
theorem State.output_appended {s : State} {bs : List Byte} (hempty : s.outLen = 0)
    (hfits : s.outLen.toNat + bs.length ≤ s.cap) : (s.appended bs).output = bs.map some := by
  have hobuf : (s.appended bs).obuf = s.obuf.writeBytes 0 bs :=
    congrArg (fun n : Half => s.obuf.writeBytes n.toNat bs) hempty
  have hlen : (s.appended bs).outLen.toNat = bs.length := by
    rw [State.outLen_appended hfits, hempty]
    exact Nat.zero_add _
  rw [State.output, hlen, hobuf, Memory.span_writeBytes]

theorem State.pointersOk_appended {s : State} {bs : List Byte} (hp : s.pointersOk = true)
    (hfits : s.outLen.toNat + bs.length ≤ s.cap) : (s.appended bs).pointersOk = true := by
  obtain ⟨hle, hcap, -⟩ := s.pointersOk_iff.1 hp
  exact (State.pointersOk_iff _).2 ⟨hle, hcap, (State.outLen_appended hfits).trans_le hfits⟩

/-- The bytes moved are the window (44_buffer.md R200). -/
theorem State.window_moveToInput {s : State} {bs : List Byte} (hout : s.output = bs.map some) :
    (s.moveToInput bs).window = bs.map some := by
  calc (s.moveToInput bs).window = (s.ibuf.writeBytes 0 bs).span 0 s.outLen.toNat := rfl
    _ = bs.map some := by rw [← State.length_written_output hout, Memory.span_writeBytes]

theorem State.pointersOk_moveToInput {s : State} (hp : s.pointersOk = true) (bs : List Byte) :
    (s.moveToInput bs).pointersOk = true := by
  obtain ⟨-, -, hout⟩ := s.pointersOk_iff.1 hp
  exact (State.pointersOk_iff _).2 ⟨Nat.zero_le _, hout, Nat.zero_le _⟩

/-- Settles O25: the encoding becomes the output, then the window, and then decodes to VALUE. -/
theorem vencOut2inVdecrawGivesValueBack : Obligations.VencOut2inVdecrawGivesValueBack := by
  intro s hp hempty hcap
  obtain ⟨-, hten⟩ := length_encodeVarint s.value
  have hfits : s.outLen.toNat + (encodeVarint s.value).length ≤ s.cap := by
    rw [hempty]
    exact (Nat.zero_add _).trans_le (hten.trans hcap)
  have hout := State.output_appended hempty hfits
  have hp' := State.pointersOk_appended hp hfits
  have hd := varintRoundTrip s.value []
  rw [List.append_nil, ← State.window_moveToInput hout] at hd
  refine ⟨_, _, _, execVenc_fits hp hfits, execOut2in_written hp' hout,
    execVdecraw_decoded (State.pointersOk_moveToInput hp' _) hd, rfl, ?_, rfl, rfl⟩
  exact BitVec.ofInt_natCast 32 _

end Sys2Proof.Machine
end

section
/-! PROOFS of the statements on hex text written and read back (42_hex.md section 1). -/

namespace Sys2Proof.Machine

/-- The two digits of a byte (42_hex.md R153). -/
def hexPair (b : Byte) : Byte × Byte := (hexDigit (b.toNat / 16), hexDigit (b.toNat % 16))

/-- The characters of a list of pairs, in order. -/
def pairChars (ps : List (Byte × Byte)) : List Byte := ps.flatMap fun p => [p.1, p.2]

theorem pairText_eq_map (ps : List (Byte × Byte)) : pairText ps = (pairChars ps).map some := by
  simp [pairText, pairChars, List.map_flatMap]

theorem hexEncode_eq_pairChars (bs : List Byte) : hexEncode bs = pairChars (bs.map hexPair) := by
  induction bs with
  | nil => rfl
  | cons b bs ih => rw [hexEncode, ih]; rfl

theorem spells_hexPair (b : Byte) : spells (hexPair b) b := by
  have := b.isLt
  exact ⟨_, _, hexval_hexDigit _ (by omega), hexval_hexDigit _ (by omega), by omega⟩

/-- Settles O30: the digits of each byte spell it. -/
theorem hexRoundTripOnBytes : Obligations.HexRoundTripOnBytes := by
  intro bs
  have hspells : List.Forall₂ spells (bs.map hexPair) bs :=
    List.forall₂_map_left_iff.2 (List.forall₂_same.2 fun b _ => spells_hexPair b)
  rw [hexEncode_eq_pairChars, ← pairText_eq_map, hexDecode_pairs hspells]

/-- A character that is an uppercase hex digit (42_hex.md R150). -/
def isUpperHex (c : Byte) : Prop := 0x41 ≤ c.toNat ∧ c.toNat ≤ 0x46

/-- Of the digits with a value, the uppercase ones are those not written for it (42_hex.md R150, R153). -/
theorem hexDigit_eq_iff {c : Byte} {d : Nat} (h : hexval c = some d) : hexDigit d = c ↔ ¬isUpperHex c := by
  have hall : ∀ c : Byte, ∀ d ∈ hexval c, (hexDigit d = c ↔ ¬(0x41 ≤ c.toNat ∧ c.toNat ≤ 0x46)) := by decide
  exact hall c d h

/-- A pair that spells a byte is the pair written for it unless one of its digits is uppercase. -/
theorem hexPair_eq_iff {p : Byte × Byte} {b : Byte} (h : spells p b) :
    hexPair b = p ↔ ¬isUpperHex p.1 ∧ ¬isUpperHex p.2 := by
  obtain ⟨x, y, hx, hy, hb⟩ := h
  have hylt := hexval_lt hy
  have hhigh : b.toNat / 16 = x := by omega
  have hlow : b.toNat % 16 = y := by omega
  rw [hexPair, hhigh, hlow, Prod.ext_iff, hexDigit_eq_iff hx, hexDigit_eq_iff hy]

/-- Pairs that spell bytes are the pairs written for them unless a digit is uppercase. -/
theorem map_hexPair_eq_iff {ps : List (Byte × Byte)} {bs : List Byte} (h : List.Forall₂ spells ps bs) :
    bs.map hexPair = ps ↔ ∀ c ∈ pairChars ps, ¬isUpperHex c := by
  induction h with
  | nil => simp [pairChars]
  | @cons p b ps bs hp _ ih =>
    rw [List.map_cons, List.cons.injEq, hexPair_eq_iff hp, ih]
    simp [pairChars, and_assoc]

theorem pairChars_injective : Function.Injective pairChars := by
  intro ps qs h
  induction ps generalizing qs with
  | nil =>
    cases qs with
    | nil => rfl
    | cons q qs => cases h
  | cons p ps ih =>
    cases qs with
    | nil => cases h
    | cons q qs =>
      have hcons : p.1 :: p.2 :: pairChars ps = q.1 :: q.2 :: pairChars qs := h
      simp only [List.cons.injEq] at hcons
      obtain ⟨h1, h2, hrest⟩ := hcons
      rw [Prod.ext h1 h2, ih hrest]

/-- Settles O31: decodable text is pairs that spell the bytes, and each pair is the one written for its byte unless a
digit of it is uppercase. -/
theorem hexRoundTripOnLowercaseText : Obligations.HexRoundTripOnLowercaseText := by
  intro text bs h
  rcases hexDecode_cases (text.map some) with ⟨ps, out, hps, htext, hd⟩ | hd | ⟨k, -, hd⟩
  · cases h.symm.trans hd
    rw [pairText_eq_map, List.map_inj_right fun _ _ => Option.some.inj] at htext
    rw [htext, hexEncode_eq_pairChars, pairChars_injective.eq_iff]
    exact map_hexPair_eq_iff hps
  · cases h.symm.trans hd
  · cases h.symm.trans hd

end Sys2Proof.Machine
end

section
/-! PROOFS of the statements on what each command leaves unchanged (30_encoding.md section 1): the frame of the commands
that decode varints, that append output, that look up the registry, and of OUT2IN. -/

namespace Sys2Proof.Machine

/-- Settles O26: a decode writes VALUE and COUNT, and the end of VDEC ERR and IN_PTR. -/
theorem varintDecodeFrame : Obligations.VarintDecodeFrame := by
  intro i s t hi h
  have hframe : t = { s with value := t.value, count := t.count, inPtr := t.inPtr, err := t.err } ∧
      (i = .vdecraw → t.inPtr = s.inPtr) := by
    rcases exec_next h with ⟨e, -, -, rfl⟩ | ⟨-, heffect⟩
    · exact ⟨rfl, fun _ => rfl⟩
    · cases heffect with
      | vdecraw hd => exact ⟨rfl, fun _ => rfl⟩
      | @vdec v c hd =>
        rcases finishVdec_cases s v c with ⟨-, hend⟩ | ⟨-, hend⟩ | ⟨-, hend⟩ <;> rw [hend] <;> exact ⟨rfl, nofun⟩
      | _ => simp at hi
  obtain ⟨hregs, hptr⟩ := hframe
  refine ⟨hregs, hptr, fun b a => ?_⟩
  rw [hregs]
  cases b <;> rfl

/-- Bytes appended stand at OUT_LEN, and no byte outside them changes (40_command_cycle.md R105). -/
theorem State.read_obuf_appended_outside (s : State) (bs : List Byte) {a : Nat}
    (h : a < s.outLen.toNat ∨ s.outLen.toNat + bs.length ≤ a) : (s.appended bs).obuf.read a = s.obuf.read a :=
  s.obuf.read_writeBytes_outside s.outLen.toNat bs a h

/-- Text of good pairs is twice as long as what it spells (42_hex.md R151). -/
theorem length_of_pairText {ps : List (Byte × Byte)} {out : List Byte} (h : List.Forall₂ spells ps out) :
    (pairText ps).length = 2 * out.length := by
  rw [length_pairText, h.length_eq]

/-- Settles O32: a rule that runs to its end appends as many bytes as `width` says; a rule that fails appends none. -/
theorem outputCommandsFrame : Obligations.OutputCommandsFrame := by
  intro i s t width hwidth h
  rcases exec_next h with ⟨e, -, -, rfl⟩ | ⟨-, heffect⟩
  · exact ⟨rfl, fun _ => rfl, fun _ => rfl, fun _ _ => rfl, fun _ _ => rfl⟩
  · cases heffect with
    | venc hfits =>
      obtain rfl : width = (encodeVarint s.value).length := by simpa using hwidth
      exact ⟨rfl, fun _ => rfl, fun _ => rfl, fun a ha => s.read_obuf_appended_outside _ ha, fun hne => absurd rfl hne⟩
    | @hexdec ps out hw hps hfits =>
      have hlen : width = s.window.length / 2 := by simpa using hwidth
      obtain rfl : width = out.length := by rw [hlen, hw, length_of_pairText hps]; omega
      exact ⟨rfl, nofun, fun _ => rfl, fun a ha => s.read_obuf_appended_outside _ ha, fun hne => absurd rfl hne⟩
    | @hexenc bs hw hfits =>
      have hlen : width = 2 * s.window.length := by simpa using hwidth
      obtain rfl : width = (hexEncode bs).length := by rw [hlen, hw, List.length_map, length_hexEncode]
      exact ⟨rfl, nofun, fun _ => rfl, fun a ha => s.read_obuf_appended_outside _ ha, fun hne => absurd rfl hne⟩
    | _ => simp at hwidth

/-- A lookup's result and its OK are all that LKCODE and LKNAME write (43_registry.md R176, R177). -/
theorem State.setLookup_frame (s : State) (o : Option HashId) :
    (s.setLookup o).succeed = { s with found := (s.setLookup o).found, funcId := (s.setLookup o).funcId,
                                       funcCode := (s.setLookup o).funcCode, err := .ok } := by
  cases o <;> rfl

/-- Settles O37: the lookups write what `setLookup` writes, VALID what `setFound` does. -/
theorem registryCommandsFrame : Obligations.RegistryCommandsFrame := by
  intro i s t hi h
  have hframe : t = { s with found := t.found, funcId := t.funcId, funcCode := t.funcCode, err := t.err } ∧
      (i = .valid → t.funcId = s.funcId ∧ t.funcCode = s.funcCode) := by
    rcases exec_next h with ⟨e, -, -, rfl⟩ | ⟨-, heffect⟩
    · exact ⟨rfl, fun _ => ⟨rfl, rfl⟩⟩
    · cases heffect with
      | lkcode => exact ⟨s.setLookup_frame _, nofun⟩
      | lkname hw => exact ⟨s.setLookup_frame _, nofun⟩
      | valid => exact ⟨rfl, fun _ => ⟨rfl, rfl⟩⟩
      | _ => simp at hi
  obtain ⟨hregs, hfunc⟩ := hframe
  refine ⟨hregs, hfunc, fun b a => ?_⟩
  rw [hregs]
  cases b <;> rfl

/-- Settles O40: OUT2IN that runs to its end is `moveToInput` of OUT_LEN bytes. -/
theorem out2inFrame : Obligations.Out2inFrame := by
  intro s t h
  rcases exec_next h with ⟨e, -, -, rfl⟩ | ⟨-, heffect⟩
  · exact ⟨rfl, fun _ _ => rfl, fun _ => rfl⟩
  · cases heffect with
    | out2in hout =>
      refine ⟨rfl, fun a ha => s.read_ibuf_moveToInput_past ?_, fun _ => rfl⟩
      rwa [State.length_written_output hout]

end Sys2Proof.Machine
end

section
/-! PROOFS of the statements on accesses while BUSY = 0 and BUSY = 1 (20_memory.md sections 2 and 3, 10_state.md section
3, 70_reset_and_hazards.md section 3): the byte lanes of a buffer, the registers a host reads and writes, and what a
read changes and tells. -/

namespace Sys2Proof.Machine

/-! ### The buffers -/

theorem State.locate_window {s : State} {b : Buffer} {i : Nat} {n : Size} (halign : i % n.bytes = 0)
    (hcap : i + n.bytes ≤ s.config.bufCap.toNat) : s.locate (b.window + i) n = some (.bytes b i) :=
  State.locate_eq_bytes.2 ⟨rfl, halign, hcap⟩

theorem State.length_hostBytes (s : State) (b : Buffer) (i n : Nat) : (s.hostBytes b i n).length = n := by
  simp [State.hostBytes]

/-- A byte that holds a value reads as it (20_memory.md R53). -/
theorem State.getElem_hostBytes {s : State} {b : Buffer} {i n k : Nat} {x : Byte}
    (hk : k < (s.hostBytes b i n).length) (hx : (s.buffer b).read (i + k) = some x) : (s.hostBytes b i n)[k] = x := by
  simp [State.hostBytes, hx]

/-- The bytes of a word are its low bytes, with zeros above (log 7). -/
theorem wordOfBytes_lt (bs : List Byte) : (wordOfBytes bs).toNat < 256 ^ bs.length := by
  have hpow (n : Nat) : 256 ^ n = 2 ^ (8 * n) := by rw [Nat.pow_mul]
  induction bs with
  | nil => exact Nat.one_pos
  | cons b bs ih =>
    rw [hpow] at ih ⊢
    rw [wordOfBytes, BitVec.toNat_or, List.length_cons, Nat.mul_succ]
    have hshift : (wordOfBytes bs <<< 8).toNat < 2 ^ (8 * bs.length + 8) := by
      rw [BitVec.toNat_shiftLeft, Nat.shiftLeft_eq, Nat.pow_add]
      exact lt_of_le_of_lt (Nat.mod_le _ _) (Nat.mul_lt_mul_of_pos_right ih (by decide))
    have hbyte : (b.setWidth 32).toNat < 2 ^ (8 * bs.length + 8) := by
      rw [BitVec.toNat_setWidth]
      calc b.toNat % 2 ^ 32 ≤ b.toNat := Nat.mod_le _ _
        _ < 2 ^ 8 := b.isLt
        _ ≤ 2 ^ (8 * bs.length + 8) := Nat.pow_le_pow_right (by decide) (Nat.le_add_left _ _)
    exact Nat.or_lt_two_pow hshift hbyte

/-- Settles O42: the access is of `n` bytes of the buffer, stored by `writeBytes` and read lane by lane. -/
theorem bufferAccessIsLittleEndian : Obligations.BufferAccessIsLittleEndian := by
  intro s b i n w hreset hidle halign hcap
  have hplace := State.locate_window (b := b) halign hcap
  have hlen := length_bytesOfWord w n.bytes
  constructor
  · refine ⟨s.setBuffer b ((s.buffer b).writeBytes i (bytesOfWord w n.bytes)), ?_, ?_, fun k hk => ?_,
      fun a ha => ?_⟩
    · rw [Nat.add_assoc, State.access_write_place hreset hplace, State.writePlace_bytes hidle]
    · rw [State.buffer_setBuffer]
    · rw [State.buffer_setBuffer, Memory.read_writeBytes_inside _ _ _ _ (by rwa [hlen]), getElem_bytesOfWord]
    · rw [State.buffer_setBuffer, Memory.read_writeBytes_outside _ _ _ _ (by rwa [hlen])]
  · have hbytes := s.length_hostBytes b i n.bytes
    refine ⟨s.drawn n.bytes, wordOfBytes (s.hostBytes b i n.bytes), ?_, rfl, fun k hk x hx => ?_, ?_⟩
    · rw [Nat.add_assoc, State.access_read_place hreset hplace, State.readPlace_bytes hidle]
    · rw [wordOfBytes_lane _ (by rw [hbytes]; exact n.bytes_le) k (by rwa [hbytes]), State.getElem_hostBytes _ hx]
    · exact (wordOfBytes_lt _).trans_eq (by rw [hbytes])

/-! ### The registers -/

/-- Settles O47: a write of one half puts it beside the other, and each half is read alone. -/
theorem valueIsWrittenByHalves : Obligations.ValueIsWrittenByHalves := fun _ w hreset hidle =>
  ⟨⟨_, State.access_write_reg_idle hreset hidle .valueLo w, rfl, extract_append_low _ _, extract_append_high _ _⟩,
    ⟨_, State.access_write_reg_idle hreset hidle .valueHi w, rfl, extract_append_high _ _, extract_append_low _ _⟩,
    State.access_read_reg_idle hreset hidle .valueLo, State.access_read_reg_idle hreset hidle .valueHi⟩

/-- Settles O48: the three registers take the low half of the word and are read with zeros above. -/
theorem lengthRegistersTakeSixteenBits : Obligations.LengthRegistersTakeSixteenBits := by
  intro s w hreset hidle
  have hread := State.access_read_reg_idle hreset hidle
  have hwrite (r : Reg) := State.access_write_reg_idle hreset hidle r w
  rw [← BitVec.setWidth_eq_extractLsb' (by decide)]
  simp only [← setWidth_eq_append]
  exact ⟨hwrite .inPtr, hwrite .inLen, hwrite .outLen, hread .inPtr, hread .inLen, hread .outLen⟩

/-- Settles O49: each is a register read while BUSY = 0. -/
theorem resultRegistersRead : Obligations.ResultRegistersRead := by
  intro s hreset hidle
  have hread := State.access_read_reg_idle hreset hidle
  rw [← setWidth_eq_append]
  exact ⟨hread .count, hread .funcId, hread .funcCodeLo, hread .funcCodeHi⟩

/-! ### What a read changes and tells -/

/-- Settles O51: a read draws free bytes and does nothing else. -/
theorem readsAreFreeOfSideEffects : Obligations.ReadsAreFreeOfSideEffects := by
  intro s addr n
  rcases s.access_cases (.read addr n) with ⟨k, hk⟩ | ⟨_, _, _, _, hwrite, -⟩
  · rw [hk]
    rfl
  · cases hwrite

/-- Which place an access is of depends on the parameters and the reset input alone (20_memory.md R52 to R55). -/
theorem State.admitted_congr {s u : State} (hconfig : s.config = u.config) (hreset : s.inReset = u.inReset) (addr : Nat)
    (n : Size) : s.admitted addr n = u.admitted addr n := by
  have hcap : s.cap = u.cap := by rw [State.cap, State.cap, hconfig]
  simp only [State.admitted, State.offsetOf, State.locate, State.locateBytes, hconfig, hreset, hcap]

/-- STATUS is read at its own address alone (20_memory.md R52). -/
theorem State.addr_of_status {s : State} {addr : Nat} {n : Size} (h : s.admitted addr n = some (.reg .status)) :
    addr = s.config.base + 0x0C := by
  obtain ⟨-, off, rfl, hplace⟩ := State.admitted_eq_some.1 h
  rw [(State.locate_eq_reg.1 hplace).2]
  rfl

/-- Settles O50: the place is the same on both machines, and a place that is not STATUS answers free bytes. -/
theorem busyReadsTellNothing : Obligations.BusyReadsTellNothing := by
  intro s u addr n hs hu hconfig hreset hdraws haddr
  have hsame := State.admitted_congr hconfig hreset addr n
  cases hplace : s.admitted addr n with
  | none =>
    rw [hplace] at hsame
    rw [(State.access_unadmitted hplace).1, (State.access_unadmitted hsame.symm).1]
  | some p =>
    have hp : p ≠ .reg .status := fun hp => haddr (State.addr_of_status (hp ▸ hplace))
    have hfree : s.freeByte = u.freeByte := funext fun k => by rw [State.freeByte, State.freeByte, hdraws]
    rw [State.access, State.access, ← hsame, hplace]
    simp only [State.readPlace_busy hs hp, State.readPlace_busy hu hp, State.freeWord, hfree]

end Sys2Proof.Machine
end

section
/-! PROOFS of the statements on the lines of a host program (30_encoding.md section 6, 20_memory.md section 2): two
moves of the host in a row, and what a line and its access leave. -/

namespace Sys2Proof.Machine

/-! ### Two moves of the host -/

theorem State.hostTurn_turns (s : State) : s.hostTurn.turns = s.turns := by
  obtain ⟨h, u, hturn, heffect⟩ := s.hostTurn_effect
  have hu : u.turns = s.turns := by
    rcases heffect with ⟨k, rfl⟩ | ⟨-, rfl⟩ | ⟨-, -, r, w, -, -, rfl⟩ | ⟨-, b, i, n, w, -, rfl⟩
    · rfl
    · rfl
    · cases r <;> rfl
    · cases b <;> rfl
  rw [hturn, ← hu]
  rfl

/-- Two steps that the list gives to the host. -/
theorem run_two_host {s : State} {rest : List Turn} (h : s.turns = .host :: .host :: rest) :
    core.run 2 s = .next (State.hostTurn { State.hostTurn { s with turns := .host :: rest } with turns := rest }) := by
  have hsecond := step_host (State.hostTurn_turns { s with turns := .host :: rest })
  exact (run_succ_next (M := core) (step_host h) 1).trans (run_succ_next (M := core) hsecond 0)

/-! ### The line `cmd` -/

/-- An idle block accepts the word of a `cmd` line's access (40_command_cycle.md R100). -/
theorem State.perform_cmd_write {s : State} (hreset : s.inReset = false) (hidle : s.busy = false) (w : Word) :
    s.perform (.write (s.regAddr .cmd) .four w) = (s.accept w).respond .done := by
  have haccess := State.access_write_reg_idle hreset hidle .cmd w
  rw [State.perform, BusOp.access, State.regAddr, haccess]
  rfl

/-- The line `cmd` lines up the write of the command's word to CMD (30_encoding.md R85). -/
theorem State.hostTurn_cmd_line {s : State} {i : Instr} (hqueue : s.host.queue = [])
    (hline : s.host.program[s.host.pos]? = some (.cmd i)) : ∃ h, s.hostTurn = s.withHost h ∧
      h.queue = [.write (s.regAddr .cmd) .four (encode i)] ∧ h.pos = s.host.pos + 1 :=
  ⟨_, State.hostTurn_line hqueue hline, rfl, rfl⟩

/-- The access of a `cmd` line starts the command of an idle block (40_command_cycle.md R100). -/
theorem State.hostTurn_cmd_write {s : State} {w : Word} (hreset : s.inReset = false) (hidle : s.busy = false)
    (hqueue : s.host.queue = [.write (s.regAddr .cmd) .four w]) :
    ∃ h, s.hostTurn = (s.accept w).withHost h ∧ h.queue = [] ∧ h.pos = s.host.pos :=
  ⟨_, (State.hostTurn_access hqueue).trans (State.perform_cmd_write (s := s.enqueue []) hreset hidle w), rfl, rfl⟩

/-- Settles O53: the first move lines up the write of the command's word to CMD, the second makes it. -/
theorem hostCmdLineStartsCommand : Obligations.HostCmdLineStartsCommand := by
  intro s i rest hidle hreset hqueue hline hturns
  obtain ⟨h, hfirst, hlined, hpos⟩ :=
    State.hostTurn_cmd_line (s := { s with turns := .host :: rest }) hqueue hline
  obtain ⟨k, hsecond, hmade, hpos'⟩ :=
    State.hostTurn_cmd_write (s := { State.withHost s h with turns := rest }) hreset hidle hlined
  rw [run_two_host hturns, hfirst]
  exact ⟨_, congrArg Host.Outcome.next hsecond, rfl, rfl, decode_opcode_word.2 rfl, hpos'.trans hpos, hmade, rfl⟩

/-! ### The line `wait` -/

theorem getVar_setVar (env : List (Ident × HostVal)) (x : Ident) (v : HostVal) : getVar (setVar env x v) x = some v :=
  if_pos rfl

/-- STATUS is read as it is, whether or not a command is pending (70_reset_and_hazards.md R252). -/
theorem State.perform_poll {s : State} (hreset : s.inReset = false) :
    s.perform (.poll (s.config.base + 0x0C)) =
      s.receive (.poll (s.config.base + 0x0C)) (.data s.statusWord) := by
  have haccess := State.access_read_reg hreset .status
  rw [State.perform, BusOp.access, show s.config.base + 0x0C = s.config.base + Reg.offset .status from rfl, haccess,
    State.readPlace_status]

/-- Settles O54: bit 0 of the word read is BUSY, by which `receive` keeps the access or lets it go. -/
theorem waitRepeatsWhileBusy : Obligations.WaitRepeatsWhileBusy := by
  intro s rest hreset hqueue
  obtain ⟨hbit, -⟩ := s.statusWord_flags
  have hturn := (State.hostTurn_access hqueue).trans (State.perform_poll (s := s.enqueue rest) hreset)
  rw [hturn, State.receive, show (s.enqueue rest).statusWord = s.statusWord from rfl, hbit]
  split_ifs <;> exact ⟨rfl, getVar_setVar _ _ _, rfl⟩

/-! ### A conditional goto on a bus error -/

/-- A state whose host part and list of moves alone may differ. -/
def State.withPlan (s : State) (h : HostAgent) (ts : List Turn) : State := { s with host := h, turns := ts }

/-- The response to a read of a place depends on neither the host nor the list of moves. -/
theorem State.readPlace_withPlan (s : State) (h : HostAgent) (ts : List Turn) (p : Place) (n : Size) :
    ((s.withPlan h ts).readPlace p n).2 = (s.readPlace p n).2 := by
  by_cases hp : p = .reg .status
  · rw [hp]
    rfl
  · cases hb : s.busy with
    | true =>
      rw [State.readPlace_busy hb hp, State.readPlace_busy (s := s.withPlan h ts) hb hp]
      rfl
    | false =>
      cases p with
      | reg r =>
        rw [State.readPlace_reg hb, State.readPlace_reg (s := s.withPlan h ts) hb]
        rfl
      | bytes b i =>
        rw [State.readPlace_bytes hb, State.readPlace_bytes (s := s.withPlan h ts) hb]
        cases b <;> rfl

/-- The response to an access depends on neither the host nor the list of moves. -/
theorem State.access_withPlan (s : State) (h : HostAgent) (ts : List Turn) (a : Access) :
    ((s.withPlan h ts).access a).2 = (s.access a).2 := by
  have hsame := State.admitted_congr (s := s.withPlan h ts) (u := s) rfl rfl
  cases a with
  | read addr n =>
    rw [State.access, State.access, hsame]
    cases s.admitted addr n with
    | none => rfl
    | some p => exact s.readPlace_withPlan h ts p n
  | write addr n w =>
    rw [State.access, State.access, hsame]
    cases s.admitted addr n <;> rfl

/-- Either condition on a bus error holds after the access exactly when its response is one (log 4). -/
theorem Cond.holds_after_access {h : HostAgent} {c : Cond} {r : Response} {failed : Bool} (hresp : h.resp = some r)
    (hfailed : h.failed = (failed || decide (r = .busError))) (hc : c = .busError ∨ (c = .lineError ∧ failed = false)) :
    c.holds h = decide (r = .busError) := by
  rcases hc with rfl | ⟨rfl, hnone⟩
  · simp [Cond.holds, hresp]
  · simp [Cond.holds, hfailed, hnone]

/-- Settles O60: the access is the queue's last, so the next move runs the goto, whose condition is then the access's
response. -/
theorem hostBranchesOnBusError : Obligations.HostBranchesOnBusError := by
  intro s op c l rest hop hc hqueue hline hturns
  have hfirst : State.hostTurn { s with turns := .host :: rest } =
      (State.enqueue { s with turns := .host :: rest } []).perform op := State.hostTurn_access hqueue
  have hsame : ((State.enqueue { s with turns := .host :: rest } []).access op.access).2 = (s.access op.access).2 :=
    s.access_withPlan _ _ _
  obtain ⟨hprogram, hpos, hresp, hfailed, hempty⟩ :=
    State.perform_host (State.enqueue { s with turns := .host :: rest } []) op
  rw [← hfirst] at hprogram hpos hresp hfailed hempty
  rw [hsame] at hresp hfailed
  rw [run_two_host hturns]
  generalize State.hostTurn { s with turns := .host :: rest } = u at hprogram hpos hresp hfailed hempty
  have hqueue' : u.host.queue = [] := hempty hop
  have hline' : u.host.program[u.host.pos]? = some (.ifGoto c l) := by
    rw [hprogram, hpos]
    exact hline
  have hholds := Cond.holds_after_access hresp hfailed hc
  rw [State.hostTurn_line (s := { u with turns := rest }) hqueue' hline', State.runLine, hholds]
  by_cases herr : (s.access op.access).2 = .busError
  · refine ⟨_, rfl, ?_⟩
    simp [herr, State.goto, hqueue', hprogram, State.enqueue]
  · refine ⟨_, rfl, ?_⟩
    simp [herr, State.nextLine, State.goto, hqueue', hpos, State.enqueue]

end Sys2Proof.Machine
end

section
/-! PROOF of the statement on what a command's result depends on (40_command_cycle.md section 3): two machines with the
same registers and the same operand, followed side by side through each command's rule. -/

namespace Sys2Proof.Machine

/-! ### Two machines side by side -/

/-- The same parameters, and the same registers but for those no command reads (CMDLATCH, BUSY, DONE, OVR). -/
structure State.SameRegs (s u : State) : Prop where
  found    : u.found = s.found
  err      : u.err = s.err
  value    : u.value = s.value
  count    : u.count = s.count
  inPtr    : u.inPtr = s.inPtr
  inLen    : u.inLen = s.inLen
  outLen   : u.outLen = s.outLen
  funcId   : u.funcId = s.funcId
  funcCode : u.funcCode = s.funcCode
  config   : u.config = s.config

/-- Next states `t` of `s` and `v` of `u` agree: in their registers, in every byte in which `s` and `u` agreed, and in
the bytes appended. -/
structure NextAgree (s u t v : State) : Prop where
  regs     : t.SameRegs v
  ibuf     : ∀ a, s.ibuf.read a = u.ibuf.read a → t.ibuf.read a = v.ibuf.read a
  obuf     : ∀ a, s.obuf.read a = u.obuf.read a → t.obuf.read a = v.obuf.read a
  appended : ∀ a, s.outLen.toNat ≤ a → a < t.outLen.toNat → t.obuf.read a = v.obuf.read a

/-- Both answer next states that agree, or both the same fault. -/
inductive ResultsAgree (s u : State) : Result → Result → Prop where
  | next {t v : State} (h : NextAgree s u t v) : ResultsAgree s u (.next t) (.next v)
  | fault (f : Fault) : ResultsAgree s u (.fault f) (.fault f)

/-- Both rules end with next states that agree, or both stop in the same way. -/
inductive RulesAgree (s u : State) : Except Stop State → Except Stop State → Prop where
  | ok {t v : State} (h : NextAgree s u t v) : RulesAgree s u (.ok t) (.ok v)
  | error (e : Stop) : RulesAgree s u (.error e) (.error e)

section Pair

variable {s u t v : State}

/-- A command that stores no byte, and leaves OUT_LEN, keeps the agreement of the buffers. -/
theorem NextAgree.of_registers (regs : t.SameRegs v) (ht : t.ibuf = s.ibuf ∧ t.obuf = s.obuf ∧ t.outLen = s.outLen)
    (hv : v.ibuf = u.ibuf ∧ v.obuf = u.obuf) : NextAgree s u t v := by
  obtain ⟨hti, hto, hlen⟩ := ht
  obtain ⟨hvi, hvo⟩ := hv
  refine ⟨regs, fun a ha => by rw [hti, hvi, ha], fun a ha => by rw [hto, hvo, ha], fun a hlo hhi => ?_⟩
  rw [hlen] at hhi
  omega

theorem NextAgree.succeed (h : NextAgree s u t v) : NextAgree s u t.succeed v.succeed :=
  { h with regs := { h.regs with err := rfl } }

theorem NextAgree.consumeInput (h : NextAgree s u t v) : NextAgree s u t.consumeInput v.consumeInput :=
  { h with regs := { h.regs with inPtr := h.regs.inLen } }

/-- Bytes stored over two buffers are the same in both, and every other byte is as it was. -/
theorem Memory.read_writeBytes_agree {m n : Memory} (i : Nat) (bs : List Byte) {a : Nat} (h : m.read a = n.read a) :
    (m.writeBytes i bs).read a = (n.writeBytes i bs).read a := by
  by_cases hin : i ≤ a ∧ a < i + bs.length
  · exact Memory.read_writeBytes_eq m n i bs a hin.1 hin.2
  · rw [m.read_writeBytes_outside i bs a (by omega), n.read_writeBytes_outside i bs a (by omega), h]

/-! ### What every command shares -/

theorem State.SameRegs.cap (h : s.SameRegs u) : u.cap = s.cap := by rw [State.cap, State.cap, h.config]

theorem State.SameRegs.pointersOk (h : s.SameRegs u) : u.pointersOk = s.pointersOk := by
  rw [State.pointersOk, State.pointersOk, h.inPtr, h.inLen, h.outLen, h.cap]

theorem NextAgree.fail (h : s.SameRegs u) (e : ErrCode) : NextAgree s u (s.fail e) (u.fail e) :=
  .of_registers { h with err := rfl } ⟨rfl, rfl, rfl⟩ ⟨rfl, rfl⟩

/-- Rules that agree make commands that agree: both fail the pointer check or neither does, and both read the same
operand of the same buffer. -/
theorem RulesAgree.checked (h : s.SameRegs u) (b : Buffer) {k j : Nat} (hk : j = k) {r r' : Except Stop State}
    (hr : RulesAgree s u r r') : ResultsAgree s u (s.checked (s.settle b k r)) (u.checked (u.settle b j r')) := by
  subst hk
  cases hp : s.pointersOk with
  | false =>
    rw [State.checked_bad hp, State.checked_bad (h.pointersOk.trans hp)]
    exact .next (.fail h _)
  | true =>
    rw [State.checked_ok hp, State.checked_ok (h.pointersOk.trans hp)]
    cases hr with
    | ok hnext => exact .next hnext
    | error e =>
      cases e with
      | unwritten i => exact .fault _
      | failed e => exact .next (.fail h e)

theorem NextAgree.checked (h : s.SameRegs u) (hnext : NextAgree s u t v) :
    ResultsAgree s u (s.checked (.next t)) (u.checked (.next v)) :=
  RulesAgree.checked h .ibuf (k := 0) rfl (.ok hnext)

/-- An Append of the same bytes overflows on both machines or fits on both (40_command_cycle.md R105). -/
theorem State.SameRegs.append (h : s.SameRegs u) (bs : List Byte) :
    (∃ e, s.append bs = .error e ∧ u.append bs = .error e) ∨
      s.append bs = .ok (s.appended bs) ∧ u.append bs = .ok (u.appended bs) ∧
        NextAgree s u (s.appended bs) (u.appended bs) := by
  rcases s.append_cases bs with ⟨hfits, hs⟩ | ⟨hover, hs⟩
  · have hu : u.append bs = .ok (u.appended bs) := State.append_fits (by rwa [h.outLen, h.cap])
    have hbuf : (u.appended bs).obuf = u.obuf.writeBytes s.outLen.toNat bs := by rw [← h.outLen]; rfl
    refine .inr ⟨hs, hu, { h with outLen := ?_ }, fun _ ha => ha, fun a ha => ?_, fun a hlo hhi => ?_⟩
    · rw [State.appended, State.appended, h.outLen]
    · rw [hbuf]
      exact Memory.read_writeBytes_agree _ _ ha
    · rw [State.outLen_appended hfits] at hhi
      rw [hbuf]
      exact Memory.read_writeBytes_eq _ _ _ _ _ hlo hhi
  · exact .inl ⟨_, hs, State.append_overflows (by rwa [h.outLen, h.cap])⟩

/-! ### The commands -/

/-- VALUE, COUNT and the end of VDEC (41_varint.md R126). -/
theorem NextAgree.finishVdec (h : s.SameRegs u) (v : DWord) (c : Int) :
    NextAgree s u (s.finishVdec v c) (u.finishVdec v c) := by
  unfold State.finishVdec
  split_ifs
  · exact .of_registers { h with value := rfl, count := rfl, err := rfl } ⟨rfl, rfl, rfl⟩ ⟨rfl, rfl⟩
  · exact .of_registers { h with value := rfl, count := rfl, err := rfl } ⟨rfl, rfl, rfl⟩ ⟨rfl, rfl⟩
  · exact .of_registers { h with value := rfl, count := rfl, err := rfl, inPtr := by simp [h.inPtr] } ⟨rfl, rfl, rfl⟩
      ⟨rfl, rfl⟩

theorem NextAgree.setLookup (h : s.SameRegs u) (o : Option HashId) :
    NextAgree s u (s.setLookup o) (u.setLookup o) := by
  cases o <;> exact .of_registers { h with found := rfl, funcId := rfl, funcCode := rfl } ⟨rfl, rfl, rfl⟩ ⟨rfl, rfl⟩

theorem NextAgree.moveToInput (h : s.SameRegs u) (bs : List Byte) :
    NextAgree s u (s.moveToInput bs) (u.moveToInput bs) where
  regs := { h with inPtr := rfl, inLen := h.outLen, outLen := rfl }
  ibuf _ ha := Memory.read_writeBytes_agree 0 bs ha
  obuf _ ha := ha
  appended a _ hhi := absurd hhi (Nat.not_lt_zero a)

/-- The commands that read the window and those that read the output bytes answer alike on the same operand; the others
read no buffer byte (40_command_cycle.md R104). -/
theorem exec_agrees {i : Instr} (h : s.SameRegs u)
    (hin : i ∈ [.vdecraw, .vdec, .hexdec, .hexenc, .lkname] → u.window = s.window)
    (hout : i = .out2in → u.output = s.output) : ResultsAgree s u (exec i s) (exec i u) := by
  have hptr : u.inPtr.toNat = s.inPtr.toNat := by rw [h.inPtr]
  cases i with
  | vdecraw =>
    refine RulesAgree.checked h .ibuf hptr ?_
    rw [hin (by simp)]
    cases decodeRaw s.window with
    | ok r => exact .ok (.of_registers { h with value := rfl, count := rfl, err := rfl } ⟨rfl, rfl, rfl⟩ ⟨rfl, rfl⟩)
    | error e => exact .error e
  | vdec =>
    refine RulesAgree.checked h .ibuf hptr ?_
    rw [hin (by simp)]
    cases decodeRaw s.window with
    | ok r => exact .ok (.finishVdec h r.1 r.2)
    | error e => exact .error e
  | venc =>
    refine RulesAgree.checked h .ibuf hptr ?_
    rw [h.value]
    rcases h.append (encodeVarint s.value) with ⟨e, hs, hu⟩ | ⟨hs, hu, hnext⟩ <;> rw [hs, hu]
    · exact .error e
    · exact .ok hnext.succeed
  | hexdec =>
    refine RulesAgree.checked h .ibuf hptr ?_
    rw [hin (by simp)]
    cases hexDecode s.window with
    | ok out =>
      rcases h.append out with ⟨e, hs, hu⟩ | ⟨hs, hu, hnext⟩ <;> simp only [hs, hu]
      · exact .error e
      · exact .ok hnext.consumeInput.succeed
    | error e => exact .error e
  | hexenc =>
    refine RulesAgree.checked h .ibuf hptr ?_
    rw [hin (by simp)]
    cases readAll s.window with
    | ok bs =>
      rcases h.append (hexEncode bs) with ⟨e, hs, hu⟩ | ⟨hs, hu, hnext⟩ <;> simp only [hs, hu]
      · exact .error e
      · exact .ok hnext.consumeInput.succeed
    | error e => exact .error e
  | lkcode =>
    refine NextAgree.checked h ?_
    rw [h.value]
    exact (NextAgree.setLookup h _).succeed
  | lkname =>
    refine RulesAgree.checked h .ibuf hptr ?_
    rw [hin (by simp), h.config]
    cases readAll s.window with
    | ok k => exact .ok (NextAgree.setLookup h _).succeed
    | error e => exact .error e
  | valid =>
    refine NextAgree.checked h ?_
    rw [h.value]
    exact .of_registers { h with found := rfl, err := rfl } ⟨rfl, rfl, rfl⟩ ⟨rfl, rfl⟩
  | out2in =>
    refine RulesAgree.checked h .obuf rfl ?_
    rw [hout rfl]
    cases readAll s.output with
    | ok bs => exact .ok (NextAgree.moveToInput h bs).succeed
    | error e => exact .error e

/-- The bytes that OUT2IN moves are those of the output, whatever IBUF held (44_buffer.md R200). -/
theorem exec_out2in_moved (ht : exec .out2in s = .next t) (hv : exec .out2in u = .next v) (hout : u.output = s.output)
    (herr : t.err = .ok) (herr' : v.err = .ok) {a : Nat} (ha : a < s.outLen.toNat) : t.ibuf.read a = v.ibuf.read a := by
  cases exec_effect_of_ok ht herr with
  | @out2in bs hs =>
    cases exec_effect_of_ok hv herr' with
    | @out2in bs' hu =>
      rw [hout, hs, List.map_inj_right fun _ _ => Option.some.inj] at hu
      subst hu
      rw [← State.length_written_output hs] at ha
      exact Memory.read_writeBytes_eq _ _ _ _ _ (Nat.zero_le a) (by omega)

end Pair

/-- A state whose registers are those of another is that other, but for the fields that no command reads. -/
theorem State.SameRegs.eq {t v : State} (h : t.SameRegs v) :
    v = { t with ibuf := v.ibuf, obuf := v.obuf, cmdLatch := v.cmdLatch, busy := v.busy, done := v.done, ovr := v.ovr,
                 inReset := v.inReset, host := v.host, turns := v.turns, delays := v.delays, draws := v.draws } := by
  rw [← h.found, ← h.err, ← h.value, ← h.count, ← h.inPtr, ← h.inLen, ← h.outLen, ← h.funcId, ← h.funcCode, ← h.config]

/-- Settles O15: `exec_agrees`, with the fields that no command touches (`exec_untouched`). -/
theorem resultDependsOnlyOnWhatIsRead : Obligations.ResultDependsOnlyOnWhatIsRead := by
  intro i s m n w b d o r h ts l k u hin hout
  have hregs : s.SameRegs u := ⟨rfl, rfl, rfl, rfl, rfl, rfl, rfl, rfl, rfl, rfl⟩
  have hagree := exec_agrees hregs hin hout
  generalize hs : exec i s = rs at hagree
  generalize hu : exec i u = ru at hagree
  cases hagree with
  | fault f => rfl
  | @next t v hnext =>
    obtain ⟨hw, hb, hd, ho, hr, -, hh, hts, hl, hk⟩ := exec_untouched hu
    refine ⟨?_, hnext.ibuf, hnext.obuf, hnext.appended, ?_⟩
    · have heq := hnext.regs.eq
      rw [hw, hb, hd, ho, hr, hh, hts, hl, hk] at heq
      exact heq
    · rintro rfl herr a ha
      exact exec_out2in_moved hs hu (hout rfl) herr (hnext.regs.err.trans herr) ha

end Sys2Proof.Machine
end
